-- ==== Sys2Proof/Word.lean ====
section
/-! DEFINITION. The data widths of the CORE (00_scope.md R8 to R16, R22): bytes, instruction words, the
immediate fields, and the names of the general registers. -/

namespace Sys2Proof

/-- `u8`: a register, a timer or a memory cell (R10, R16, R43). -/
abbrev Byte := BitVec 8

/-- `u16`: `pc`, `I`, a stack entry or an instruction word (R11, R12, R13, R61). -/
abbrev Word := BitVec 16

/-- A 4-bit field that is no register number: `N` of DXYN, or a nibble the instruction ignores (R62). -/
abbrev Nibble := BitVec 4

/-- The field `NNN` (R62). -/
abbrev Addr12 := BitVec 12

/-- The name of a general register, from a 4-bit field: "a register index out of range cannot occur" (R31). -/
abbrev Reg := Fin 16

/-- `V[0xF]`, the register that is also the flag (R33). -/
abbrev VF : Reg := 15

end Sys2Proof
end

