-- ==== Sys2Proof/Syntax.lean ====
section
/-! DEFINITION. The 34 instructions of spec/opcode_table.json (30_encoding.md R66), one constructor per row, in
the table's order. An operand has exactly the width of its field, so every term of `Instr` has an encoding. The
fields that R68 says are ignored (the low nibble of 5XYn and 9XYn, Y of 8XY6 and 8XYE) are kept as operands, so
that no bit of a word is lost (log entry 11). -/

namespace Sys2Proof

/-- One constructor per row of the opcode table; the mnemonic in each docstring is the table's. -/
inductive Instr
  /-- CLS, 00E0 -/
  | cls
  /-- RET, 00EE -/
  | ret
  /-- JP, 1NNN -/
  | jp (nnn : Addr12)
  /-- CALL, 2NNN -/
  | call (nnn : Addr12)
  /-- SE_VX_NN, 3XNN -/
  | seVxNn (x : Reg) (nn : Byte)
  /-- SNE_VX_NN, 4XNN -/
  | sneVxNn (x : Reg) (nn : Byte)
  /-- SE_VX_VY, 5XYn; `n` is ignored by the semantics -/
  | seVxVy (x y : Reg) (n : Nibble)
  /-- LD_VX_NN, 6XNN -/
  | ldVxNn (x : Reg) (nn : Byte)
  /-- ADD_VX_NN, 7XNN -/
  | addVxNn (x : Reg) (nn : Byte)
  /-- LD_VX_VY, 8XY0 -/
  | ldVxVy (x y : Reg)
  /-- OR, 8XY1 -/
  | or (x y : Reg)
  /-- AND, 8XY2 -/
  | and (x y : Reg)
  /-- XOR, 8XY3 -/
  | xor (x y : Reg)
  /-- ADD_VX_VY, 8XY4 -/
  | addVxVy (x y : Reg)
  /-- SUB, 8XY5 -/
  | sub (x y : Reg)
  /-- SHR, 8XY6; `y` is ignored by the semantics -/
  | shr (x y : Reg)
  /-- SUBN, 8XY7 -/
  | subn (x y : Reg)
  /-- SHL, 8XYE; `y` is ignored by the semantics -/
  | shl (x y : Reg)
  /-- SNE_VX_VY, 9XYn; `n` is ignored by the semantics -/
  | sneVxVy (x y : Reg) (n : Nibble)
  /-- LD_I, ANNN -/
  | ldI (nnn : Addr12)
  /-- JP_V0, BNNN -/
  | jpV0 (nnn : Addr12)
  /-- RND, CXNN -/
  | rnd (x : Reg) (nn : Byte)
  /-- DRW, DXYN -/
  | drw (x y : Reg) (n : Nibble)
  /-- SKP, EX9E -/
  | skp (x : Reg)
  /-- SKNP, EXA1 -/
  | sknp (x : Reg)
  /-- LD_VX_DT, FX07 -/
  | ldVxDt (x : Reg)
  /-- LD_VX_K, FX0A -/
  | ldVxK (x : Reg)
  /-- LD_DT_VX, FX15 -/
  | ldDtVx (x : Reg)
  /-- LD_ST_VX, FX18 -/
  | ldStVx (x : Reg)
  /-- ADD_I_VX, FX1E -/
  | addIVx (x : Reg)
  /-- LD_F_VX, FX29 -/
  | ldFVx (x : Reg)
  /-- LD_B_VX, FX33 -/
  | ldBVx (x : Reg)
  /-- LD_MEM_VX, FX55 -/
  | ldMemVx (x : Reg)
  /-- LD_VX_MEM, FX65 -/
  | ldVxMem (x : Reg)
deriving DecidableEq, Repr

/-- The seven formats of R64. -/
inductive Format
  | W
  | A
  | XK
  | XY
  | XYS
  | XYN
  | XS
deriving DecidableEq, Repr

/-- A row of the opcode map of R66: a word `w` selects it when `w &&& mask = pattern`. -/
structure OpcodeRow where
  mnemonic : String
  pattern : Word
  mask : Word
  format : Format
deriving DecidableEq, Repr

/-- The row of each instruction, as R66 and spec/opcode_table.json give it. -/
def Instr.row : Instr → OpcodeRow
  | .cls => ⟨"CLS", 0x00E0, 0xFFFF, .W⟩
  | .ret => ⟨"RET", 0x00EE, 0xFFFF, .W⟩
  | .jp _ => ⟨"JP", 0x1000, 0xF000, .A⟩
  | .call _ => ⟨"CALL", 0x2000, 0xF000, .A⟩
  | .seVxNn _ _ => ⟨"SE_VX_NN", 0x3000, 0xF000, .XK⟩
  | .sneVxNn _ _ => ⟨"SNE_VX_NN", 0x4000, 0xF000, .XK⟩
  | .seVxVy _ _ _ => ⟨"SE_VX_VY", 0x5000, 0xF000, .XY⟩
  | .ldVxNn _ _ => ⟨"LD_VX_NN", 0x6000, 0xF000, .XK⟩
  | .addVxNn _ _ => ⟨"ADD_VX_NN", 0x7000, 0xF000, .XK⟩
  | .ldVxVy _ _ => ⟨"LD_VX_VY", 0x8000, 0xF00F, .XYS⟩
  | .or _ _ => ⟨"OR", 0x8001, 0xF00F, .XYS⟩
  | .and _ _ => ⟨"AND", 0x8002, 0xF00F, .XYS⟩
  | .xor _ _ => ⟨"XOR", 0x8003, 0xF00F, .XYS⟩
  | .addVxVy _ _ => ⟨"ADD_VX_VY", 0x8004, 0xF00F, .XYS⟩
  | .sub _ _ => ⟨"SUB", 0x8005, 0xF00F, .XYS⟩
  | .shr _ _ => ⟨"SHR", 0x8006, 0xF00F, .XYS⟩
  | .subn _ _ => ⟨"SUBN", 0x8007, 0xF00F, .XYS⟩
  | .shl _ _ => ⟨"SHL", 0x800E, 0xF00F, .XYS⟩
  | .sneVxVy _ _ _ => ⟨"SNE_VX_VY", 0x9000, 0xF000, .XY⟩
  | .ldI _ => ⟨"LD_I", 0xA000, 0xF000, .A⟩
  | .jpV0 _ => ⟨"JP_V0", 0xB000, 0xF000, .A⟩
  | .rnd _ _ => ⟨"RND", 0xC000, 0xF000, .XK⟩
  | .drw _ _ _ => ⟨"DRW", 0xD000, 0xF000, .XYN⟩
  | .skp _ => ⟨"SKP", 0xE09E, 0xF0FF, .XS⟩
  | .sknp _ => ⟨"SKNP", 0xE0A1, 0xF0FF, .XS⟩
  | .ldVxDt _ => ⟨"LD_VX_DT", 0xF007, 0xF0FF, .XS⟩
  | .ldVxK _ => ⟨"LD_VX_K", 0xF00A, 0xF0FF, .XS⟩
  | .ldDtVx _ => ⟨"LD_DT_VX", 0xF015, 0xF0FF, .XS⟩
  | .ldStVx _ => ⟨"LD_ST_VX", 0xF018, 0xF0FF, .XS⟩
  | .addIVx _ => ⟨"ADD_I_VX", 0xF01E, 0xF0FF, .XS⟩
  | .ldFVx _ => ⟨"LD_F_VX", 0xF029, 0xF0FF, .XS⟩
  | .ldBVx _ => ⟨"LD_B_VX", 0xF033, 0xF0FF, .XS⟩
  | .ldMemVx _ => ⟨"LD_MEM_VX", 0xF055, 0xF0FF, .XS⟩
  | .ldVxMem _ => ⟨"LD_VX_MEM", 0xF065, 0xF0FF, .XS⟩

/-- One instruction of each row, operands 0, in the table's order. -/
def Instr.samples : List Instr :=
  [.cls, .ret, .jp 0, .call 0, .seVxNn 0 0, .sneVxNn 0 0, .seVxVy 0 0 0, .ldVxNn 0 0, .addVxNn 0 0] ++
  [.ldVxVy 0 0, .or 0 0, .and 0 0, .xor 0 0, .addVxVy 0 0, .sub 0 0, .shr 0 0, .subn 0 0, .shl 0 0] ++
  [.sneVxVy 0 0 0, .ldI 0, .jpV0 0, .rnd 0 0, .drw 0 0 0, .skp 0, .sknp 0] ++
  [.ldVxDt 0, .ldVxK 0, .ldDtVx 0, .ldStVx 0, .addIVx 0, .ldFVx 0, .ldBVx 0, .ldMemVx 0, .ldVxMem 0]

/-- The opcode map of R66, 34 rows. -/
def opcodeTable : List OpcodeRow := Instr.samples.map Instr.row

end Sys2Proof
end

