-- ==== Sys2Proof/Decode.lean ====
section
/-! DEFINITION. The decoder (30_encoding.md R62, R65), total on every word and every list of bytes and rejecting by
name, the encoder written from the opcode map (R64, R66), and the decoder as the opcode table numbers bits. -/

namespace Sys2Proof

/-! ### The fields of a word (R62) -/

/-- `c = w[15:12]`, the category. -/
def fieldC (w : Word) : Nibble := w.extractLsb' 12 4
/-- `X = w[11:8]`. -/
def fieldX (w : Word) : Reg := (w.extractLsb' 8 4).toFin
/-- `Y = w[7:4]`. -/
def fieldY (w : Word) : Reg := (w.extractLsb' 4 4).toFin
/-- `N = w[3:0]`. -/
def fieldN (w : Word) : Nibble := w.extractLsb' 0 4
/-- `NN = w[7:0]`. -/
def fieldNN (w : Word) : Byte := w.extractLsb' 0 8
/-- `NNN = w[11:0]`. -/
def fieldNNN (w : Word) : Addr12 := w.extractLsb' 0 12

/-! ### Decoding -/

/-- Why bytes are no instruction. -/
inductive DecodeError
  /-- The word matches no row of the opcode map: `Unknown` of R65, "unmapped" of R67. -/
  | unmapped (w : Word)
  /-- Fewer than the two bytes of a word were given. A step never meets this: its fetch gives a whole word. -/
  | truncated (bytes : List Byte)
deriving DecidableEq, Repr

/-- Category 0, by the full word (R65). -/
def decode0 (w : Word) : Except DecodeError Instr :=
  if w = 0x00E0 then .ok .cls
  else if w = 0x00EE then .ok .ret
  else .error (.unmapped w)

/-- Category 8, by `N` (R65). -/
def decode8 (w : Word) : Except DecodeError Instr :=
  match (fieldN w).toNat with
  | 0x0 => .ok (.ldVxVy (fieldX w) (fieldY w))
  | 0x1 => .ok (.or (fieldX w) (fieldY w))
  | 0x2 => .ok (.and (fieldX w) (fieldY w))
  | 0x3 => .ok (.xor (fieldX w) (fieldY w))
  | 0x4 => .ok (.addVxVy (fieldX w) (fieldY w))
  | 0x5 => .ok (.sub (fieldX w) (fieldY w))
  | 0x6 => .ok (.shr (fieldX w) (fieldY w))
  | 0x7 => .ok (.subn (fieldX w) (fieldY w))
  | 0xE => .ok (.shl (fieldX w) (fieldY w))
  | _ => .error (.unmapped w)

/-- Category E, by `NN` (R65). -/
def decodeE (w : Word) : Except DecodeError Instr :=
  match (fieldNN w).toNat with
  | 0x9E => .ok (.skp (fieldX w))
  | 0xA1 => .ok (.sknp (fieldX w))
  | _ => .error (.unmapped w)

/-- Category F, by `NN` (R65). -/
def decodeF (w : Word) : Except DecodeError Instr :=
  match (fieldNN w).toNat with
  | 0x07 => .ok (.ldVxDt (fieldX w))
  | 0x0A => .ok (.ldVxK (fieldX w))
  | 0x15 => .ok (.ldDtVx (fieldX w))
  | 0x18 => .ok (.ldStVx (fieldX w))
  | 0x1E => .ok (.addIVx (fieldX w))
  | 0x29 => .ok (.ldFVx (fieldX w))
  | 0x33 => .ok (.ldBVx (fieldX w))
  | 0x55 => .ok (.ldMemVx (fieldX w))
  | 0x65 => .ok (.ldVxMem (fieldX w))
  | _ => .error (.unmapped w)

/-- `decode(w)` of R65: the category picks the instruction, or the decoder of its sub-selector. A category is a
nibble, so the last arm is never reached. -/
def decodeWord (w : Word) : Except DecodeError Instr :=
  match (fieldC w).toNat with
  | 0x0 => decode0 w
  | 0x1 => .ok (.jp (fieldNNN w))
  | 0x2 => .ok (.call (fieldNNN w))
  | 0x3 => .ok (.seVxNn (fieldX w) (fieldNN w))
  | 0x4 => .ok (.sneVxNn (fieldX w) (fieldNN w))
  | 0x5 => .ok (.seVxVy (fieldX w) (fieldY w) (fieldN w))
  | 0x6 => .ok (.ldVxNn (fieldX w) (fieldNN w))
  | 0x7 => .ok (.addVxNn (fieldX w) (fieldNN w))
  | 0x8 => decode8 w
  | 0x9 => .ok (.sneVxVy (fieldX w) (fieldY w) (fieldN w))
  | 0xA => .ok (.ldI (fieldNNN w))
  | 0xB => .ok (.jpV0 (fieldNNN w))
  | 0xC => .ok (.rnd (fieldX w) (fieldNN w))
  | 0xD => .ok (.drw (fieldX w) (fieldY w) (fieldN w))
  | 0xE => decodeE w
  | 0xF => decodeF w
  | _ => .error (.unmapped w)

/-- Two bytes as a word, the first in the high part (R23, R49). -/
def wordOfBytes (hi lo : Byte) : Word := hi ++ lo

/-- The byte of a word at the lower address, bits 15..8 (R49). -/
def highByte (w : Word) : Byte := w.extractLsb' 8 8

/-- The byte of a word at the higher address, bits 7..0 (R49). -/
def lowByte (w : Word) : Byte := w.extractLsb' 0 8

/-- Decoding from bytes: every instruction is the first two (R61), and the rest is handed back. -/
def decodeBytes : List Byte → Except DecodeError (Instr × List Byte)
  | hi :: lo :: rest => (decodeWord (wordOfBytes hi lo)).map fun i => (i, rest)
  | bytes => .error (.truncated bytes)

/-! ### Encoding -/

/-- A register number as a 4-bit field. -/
def regBits (x : Reg) : Nibble := BitVec.ofFin x

/-- Format `A`: c:4, NNN:12 (R64). -/
def wordA (c : Nibble) (nnn : Addr12) : Word := c ++ nnn
/-- Format `XK`: c:4, X:4, NN:8; also format `XS`, whose NN is the sub-selector (R64). -/
def wordXK (c : Nibble) (x : Reg) (nn : Byte) : Word := c ++ regBits x ++ nn
/-- Formats `XY`, `XYS` and `XYN`: c:4, X:4, Y:4, N:4 (R64). -/
def wordXYN (c : Nibble) (x y : Reg) (n : Nibble) : Word := c ++ regBits x ++ regBits y ++ n

/-- The word of an instruction, from its row of R66 and its format of R64. -/
def encode : Instr → Word
  | .cls => 0x00E0
  | .ret => 0x00EE
  | .jp nnn => wordA 0x1 nnn
  | .call nnn => wordA 0x2 nnn
  | .seVxNn x nn => wordXK 0x3 x nn
  | .sneVxNn x nn => wordXK 0x4 x nn
  | .seVxVy x y n => wordXYN 0x5 x y n
  | .ldVxNn x nn => wordXK 0x6 x nn
  | .addVxNn x nn => wordXK 0x7 x nn
  | .ldVxVy x y => wordXYN 0x8 x y 0x0
  | .or x y => wordXYN 0x8 x y 0x1
  | .and x y => wordXYN 0x8 x y 0x2
  | .xor x y => wordXYN 0x8 x y 0x3
  | .addVxVy x y => wordXYN 0x8 x y 0x4
  | .sub x y => wordXYN 0x8 x y 0x5
  | .shr x y => wordXYN 0x8 x y 0x6
  | .subn x y => wordXYN 0x8 x y 0x7
  | .shl x y => wordXYN 0x8 x y 0xE
  | .sneVxVy x y n => wordXYN 0x9 x y n
  | .ldI nnn => wordA 0xA nnn
  | .jpV0 nnn => wordA 0xB nnn
  | .rnd x nn => wordXK 0xC x nn
  | .drw x y n => wordXYN 0xD x y n
  | .skp x => wordXK 0xE x 0x9E
  | .sknp x => wordXK 0xE x 0xA1
  | .ldVxDt x => wordXK 0xF x 0x07
  | .ldVxK x => wordXK 0xF x 0x0A
  | .ldDtVx x => wordXK 0xF x 0x15
  | .ldStVx x => wordXK 0xF x 0x18
  | .addIVx x => wordXK 0xF x 0x1E
  | .ldFVx x => wordXK 0xF x 0x29
  | .ldBVx x => wordXK 0xF x 0x33
  | .ldMemVx x => wordXK 0xF x 0x55
  | .ldVxMem x => wordXK 0xF x 0x65

/-- The two bytes of an instruction, in the order of their addresses (R49). -/
def encodeBytes (i : Instr) : List Byte := [highByte (encode i), lowByte (encode i)]

/-! ### The decoder as the opcode table numbers bits -/

/-- The word whose bits are `w`, of which the table gives `nbits`: the bits above are 0. -/
def tableWord (nbits w : Nat) : Word := BitVec.ofNat 16 (w % 2 ^ nbits)

/-- The instruction that the decoder reads from the bits `w`, laid out in memory as the hardware stores them. -/
def decodeTableWord (nbits w : Nat) : Option Instr :=
  match decodeBytes [highByte (tableWord nbits w), lowByte (tableWord nbits w)] with
  | .ok (i, _) => some i
  | .error _ => none

end Sys2Proof
end

