-- ==== Sys2Proof/Config.lean ====
section
/-! DEFINITION. The implementation parameters of 00_scope.md section 3: the fixed values as constants, the
parameters that the spec leaves to the implementation as the structure `Params`, and the random source as a
free value. The DEFAULT values of the parameters stand in Machine/Defaults.lean. -/

namespace Sys2Proof

/-- `MEM_SIZE` (R8). -/
@[simp] abbrev Config.memSize : Nat := 4096
/-- `PROGRAM_START` (R9). -/
@[simp] abbrev Config.programStart : Nat := 0x200
/-- The longest image that `load` accepts: `4096 - 0x200` (R138). -/
@[simp] abbrev Config.loadCapacity : Nat := 3584
/-- `NUM_REGS` (R10). -/
@[simp] abbrev Config.numRegs : Nat := 16
/-- `STACK_DEPTH` (R13). -/
@[simp] abbrev Config.stackDepth : Nat := 64
/-- `DISPLAY_W` (R14). -/
@[simp] abbrev Config.displayW : Nat := 64
/-- `DISPLAY_H` (R14). -/
@[simp] abbrev Config.displayH : Nat := 32
/-- `NUM_KEYS` (R15). -/
@[simp] abbrev Config.numKeys : Nat := 16
/-- `FONT_GLYPHS` (R17). -/
@[simp] abbrev Config.fontGlyphs : Nat := 16
/-- `GLYPH_BYTES` (R17). -/
@[simp] abbrev Config.glyphBytes : Nat := 5
/-- The length of the font, `FONT_GLYPHS * GLYPH_BYTES` (R17). -/
@[simp] abbrev Config.fontBytes : Nat := 80

/-- `OOR_POLICY` (R18): what a memory address at or above 4096 and a key index at or above 16 do. -/
inductive OorPolicy
  | report
  | mask
deriving DecidableEq, Repr

/-- `STACK_POLICY` (R19): one policy for stack overflow and underflow. -/
inductive StackPolicy
  | fatal
  | clampContinue
deriving DecidableEq, Repr

/-- The named parameters of R17, R18 and R19, fixed for one run (R30). The type of `fontBase` is the
constraint `FONT_BASE + 80 <= 0x200` itself: 433 = 0x200 - 80 + 1. -/
structure Params where
  /-- `FONT_BASE` (R17, D2). -/
  fontBase : Fin 433
  /-- `FONT_DATA`, the 80 glyph bytes (R17, R44, D3). -/
  fontData : Vector Byte 80
  /-- `OOR_POLICY` (R18, D4). -/
  oorPolicy : OorPolicy
  /-- `STACK_POLICY` (R19, D5). -/
  stackPolicy : StackPolicy
deriving DecidableEq, Repr

/-- FREE VALUE. `random_byte()` of CXNN (R20, R102, R132, D19): the byte of the n-th draw. It has no body, so
nothing is known of any draw: no distribution, and no dependence on earlier draws (log entry 3). -/
opaque Config.randomByte : Nat → Byte

end Sys2Proof
end

