-- ==== Sys2Proof/Machine/Defaults.lean ====
section
/-! DEFINITION. The default values of the parameters (00_scope.md R17 to R19, 10_state.md R44), and what a byte of
memory holds after reset, which is what an unlisted address reads as (R43). -/

namespace Sys2Proof.Machine

/-- The default `FONT_DATA` of R44, five rows a glyph, top row first (log entry 2). -/
def defaultFont : Vector Byte 80 := #v[
  0xF0, 0x90, 0x90, 0x90, 0xF0,  0x20, 0x60, 0x20, 0x20, 0x70,
  0xF0, 0x10, 0xF0, 0x80, 0xF0,  0xF0, 0x10, 0xF0, 0x10, 0xF0,
  0x90, 0x90, 0xF0, 0x10, 0x10,  0xF0, 0x80, 0xF0, 0x10, 0xF0,
  0xF0, 0x80, 0xF0, 0x90, 0xF0,  0xF0, 0x10, 0x20, 0x40, 0x40,
  0xF0, 0x90, 0xF0, 0x90, 0xF0,  0xF0, 0x90, 0xF0, 0x10, 0xF0,
  0xF0, 0x90, 0xF0, 0x90, 0x90,  0xE0, 0x90, 0xE0, 0x90, 0xE0,
  0xF0, 0x80, 0x80, 0x80, 0xF0,  0xE0, 0x90, 0x90, 0x90, 0xE0,
  0xF0, 0x80, 0xF0, 0x80, 0xF0,  0xF0, 0x80, 0xF0, 0x80, 0x80]

/-- The spec's defaults: `FONT_BASE = 0x050`, the conventional font, `Report`, `Fatal` (D2 to D5, log entry 2). -/
def defaultParams : Params :=
  { fontBase := 0x050, fontData := defaultFont, oorPolicy := .report, stackPolicy := .fatal }

/-- The byte at `a` after reset: `FONT_DATA` at `FONT_BASE`, and 0 everywhere else (R43). -/
def resetByte (p : Params) (a : Nat) : Byte :=
  if p.fontBase.val ≤ a then (p.fontData[a - p.fontBase.val]?).getD 0 else 0

end Sys2Proof.Machine
end

