-- ==== Sys2Proof/Machine/State.lean ====
section
/-! DEFINITION. The state of the CORE (10_state.md R29), the conditions and the statuses (60_exceptions.md R120),
the machine's faults and refusals, and the state after reset (R45, R137). -/

namespace Sys2Proof.Machine

/-- What an out-of-range value was used as: the `kind` of R120. -/
inductive AccessKind
  | fetch
  | data
  | keypad
deriving DecidableEq, Repr

/-- A condition that can be fatal (R120). `pc0` is the address of the instruction that met it. -/
inductive Condition
  /-- 2NNN with `SP = 64` (R83). -/
  | stackOverflow (pc0 : Word)
  /-- 00EE with `SP = 0` (R81). -/
  | stackUnderflow (pc0 : Word)
  /-- `Addr` or `KeyIndex` met `value` under `OOR_POLICY = Report` (R25). -/
  | outOfRangeAccess (kind : AccessKind) (value : Nat) (pc0 : Word)
deriving DecidableEq, Repr

/-- The status that a step returns (R120). -/
inductive Status
  /-- Code 0. -/
  | ok
  /-- Code 1: the fetched word `w` is unmapped (R76). -/
  | unknownInstruction (w pc0 : Word)
  /-- Codes 2 to 4: raised (R77), or reported without being fatal (R78). -/
  | condition (c : Condition)
  /-- Code 6: `step` was called while `halted` held `c` (R72). -/
  | halted (c : Condition)
deriving DecidableEq, Repr

/-- What `load` returns (R138). -/
inductive LoadStatus
  /-- Code 0. -/
  | ok
  /-- Code 5, with the image's length. -/
  | loadError (length : Nat)
deriving DecidableEq, Repr

/-- The reasons why the machine could stop with a fault: none. Every condition of R120 has an effect that the spec
gives (the latch `halted` and a status), so a meaning or a step that meets one answers a next state (R77, R123;
log entry 7). No constructor: nothing raises a fault, which is safe. -/
inductive Fault
deriving DecidableEq, Repr

/-- The reasons why the model has no meaning for an instruction. -/
inductive Refusal
  /-- Answered by `exec`'s arm of an instruction that has no meaning yet. No arm does: all 34 are modelled. Safe. -/
  | notModelled (mnemonic : String)
deriving DecidableEq, Repr

/-- Memory as address and byte pairs. Canonical form: addresses rise strictly, and no entry equals what an unlisted
address reads as (`Memory.wf`). -/
abbrev Memory := List Host.Cell

/-- `display_buffer`, row by row: cell `fb[x, y]` is element x of row y (R37). -/
abbrev Display := Vector (Vector Bool 64) 32

/-- The architectural state of R29, then what the model adds. -/
structure State where
  /-- `V[0x0..0xF]` (R31). -/
  V : Vector Byte 16
  /-- `pc` (R34). During the execute phase it is already past the instruction (R75). -/
  pc : Word
  /-- `I` (R35). -/
  I : Word
  /-- `stack[0..63]` (R36). Entries at index SP and above are stale. -/
  stack : Vector Word 64
  /-- `SP`, the number of entries, 0 to 64 (R36). -/
  SP : Fin 65
  /-- `fb` (R37). -/
  fb : Display
  /-- `key[0x0..0xF]` (R38). -/
  key : Vector Bool 16
  /-- `DT` (R39). -/
  DT : Byte
  /-- `ST` (R39). -/
  ST : Byte
  /-- `mem[0..4095]` (R43, R46). -/
  mem : Memory
  /-- `halted`, the fault latch (R40). -/
  halted : Option Condition
  /-- THE MODEL'S OWN: the status that the last step returned, an output and no state of the spec's (R30, R71;
  log entry 4). -/
  status : Status
  /-- THE MODEL'S OWN: how many random bytes have been drawn, the argument of `Config.randomByte` (log entry 3). -/
  draws : Nat
  /-- THE MODEL'S OWN place for the parameters of the step relation, which no transaction changes (R30; log entry 1). -/
  params : Params
deriving DecidableEq, Repr

/-- The state after `initialize` with parameters `p` (R45, R137). -/
def State.resetWith (p : Params) : State :=
  { V := Vector.replicate 16 0
    pc := 0x200
    I := 0
    stack := Vector.replicate 64 0
    SP := 0
    fb := Vector.replicate 32 (Vector.replicate 64 false)
    key := Vector.replicate 16 false
    DT := 0
    ST := 0
    mem := []
    halted := none
    status := .ok
    draws := 0
    params := p }

/-- The machine right after reset, with the spec's default parameters (log entry 2). -/
def State.reset : State := State.resetWith defaultParams

end Sys2Proof.Machine
end

