-- ==== Sys2Proof/Machine/Memory.lean ====
section
/-! DEFINITION. Memory as a canonical list of cells: reading and writing one byte (00_scope.md R26, 20_memory.md
R46 and R55). An address is a natural number that `Addr` has returned, so below 4096. -/

namespace Sys2Proof.Machine

/-- The entry for an address, if there is one. -/
def Memory.entry : Memory → Nat → Option Byte
  | [], _ => none
  | (b, v) :: m, a => if b = a then some v else Memory.entry m a

/-- `MemRead(a, 1)` (R26): an unlisted address still holds its reset contents (R43). -/
def Memory.read (p : Params) (m : Memory) (a : Nat) : Byte :=
  (Memory.entry m a).getD (resetByte p a)

/-- The list with the entry for `a` set to `v`, at its place in the order. -/
def Memory.insert : Memory → Nat → Byte → Memory
  | [], a, v => [(a, v)]
  | (b, u) :: m, a, v =>
    if a < b then (a, v) :: (b, u) :: m
    else if a = b then (a, v) :: m
    else (b, u) :: Memory.insert m a v

/-- The list without any entry for `a`. -/
def Memory.erase : Memory → Nat → Memory
  | [], _ => []
  | (b, u) :: m, a => if b = a then Memory.erase m a else (b, u) :: Memory.erase m a

/-- `MemWrite(a, 1, v)` (R26), keeping the canonical form. -/
def Memory.write (p : Params) (m : Memory) (a : Nat) (v : Byte) : Memory :=
  if v = resetByte p a then Memory.erase m a else Memory.insert m a v

/-- The canonical form: addresses rise strictly, each is an address of the memory (R8), and no entry equals what an
unlisted address reads as. -/
abbrev Memory.wf (p : Params) (m : Memory) : Prop :=
  m.Pairwise (fun c d => c.1 < d.1) ∧ ∀ c ∈ m, c.1 < Config.memSize ∧ c.2 ≠ resetByte p c.1

/-- The bytes `bs` written from address `a` upward, each at its own address (`load`, R138). -/
def Memory.writeFrom (p : Params) : Memory → Nat → List Byte → Memory
  | m, _, [] => m
  | m, a, b :: bs => Memory.writeFrom p (Memory.write p m a b) (a + 1) bs

end Sys2Proof.Machine
end

