-- ==== Sys2Proof/Machine/Ops.lean ====
section
/-! DEFINITION. The named operations over the state: registers, memory, the call stack, `Addr`, raising and reporting
a condition, `initialize` (the only way out of `halted`), and the parts of a step around its execute phase. -/

namespace Sys2Proof.Machine

/-- What an execute phase or a step answers. -/
abbrev Result := Host.Outcome State Fault Refusal

/-- The next state of an answer, if it is one. -/
def Result.state? (r : Result) : Option State :=
  match r with
  | .next t => some t
  | .fault _ => none
  | .refused _ => none

/-! ### Registers (10_state.md R24, R31, R34, R35, R39) -/

/-- `V[x]`. -/
def State.reg (s : State) (x : Reg) : Byte := s.V[x.val]
/-- `V[x] <- b`. -/
def State.setReg (s : State) (x : Reg) (b : Byte) : State := { s with V := s.V.set x.val b }
/-- `V[i] <- bs[i]` for every i below the length of `bs` (FX65, R109). -/
def State.setRegs (s : State) (bs : List Byte) : State :=
  { s with V := Vector.ofFn fun i => (bs[i.val]?).getD (s.reg i) }
/-- `V[0] .. V[x]`, in order (FX55, R108). -/
def State.regsUpTo (s : State) (x : Reg) : List Byte := s.V.toList.take (x.val + 1)
/-- `pc <- a`. -/
def State.setPc (s : State) (a : Word) : State := { s with pc := a }
/-- `I <- a`. -/
def State.setI (s : State) (a : Word) : State := { s with I := a }
/-- `DT <- b`. -/
def State.setDT (s : State) (b : Byte) : State := { s with DT := b }
/-- `ST <- b`. -/
def State.setST (s : State) (b : Byte) : State := { s with ST := b }
/-- `fb <- d`. -/
def State.setFb (s : State) (d : Display) : State := { s with fb := d }
/-- `key <- k`. -/
def State.setKey (s : State) (k : Vector Bool 16) : State := { s with key := k }

/-- The address of the instruction being executed (R73), by undoing the pre-advance. -/
def State.pc0 (s : State) : Word := s.pc - 2

/-- `pc <- (pc + 2) mod 2^16` if the condition of a skip holds (41_control_flow.md). -/
def State.skipIf (s : State) (c : Bool) : State := if c then s.setPc (s.pc + 2) else s

/-! ### Memory (R26) -/

/-- `mem[a]`. -/
def State.readByte (s : State) (a : Nat) : Byte := Memory.read s.params s.mem a
/-- `mem[a] <- b`. -/
def State.writeByte (s : State) (a : Nat) (b : Byte) : State :=
  { s with mem := Memory.write s.params s.mem a b }
/-- The bytes at several addresses. -/
def State.readBytes (s : State) (as : List Nat) : List Byte := as.map s.readByte
/-- Bytes written to as many addresses, in order. -/
def State.writeBytes (s : State) : List Nat → List Byte → State
  | a :: as, b :: bs => (s.writeByte a b).writeBytes as bs
  | [], _ => s
  | _ :: _, [] => s

/-! ### The call stack: exactly these two operations (R36) -/

/-- `push(a)`, or none on overflow. -/
def State.push (s : State) (a : Word) : Option State :=
  if h : s.SP.val < 64 then
    some { s with stack := s.stack.set s.SP.val a, SP := ⟨s.SP.val + 1, by omega⟩ }
  else none

/-- `pop()`: the entry and the state without it, or none on underflow. The entry stays as a stale one. -/
def State.pop (s : State) : Option (Word × State) :=
  if h : 0 < s.SP.val then
    some (s.stack[s.SP.val - 1], { s with SP := ⟨s.SP.val - 1, by omega⟩ })
  else none

/-! ### Conditions: taking one, and the return from one -/

/-- `raise c` (R27, R77, R123): the latch and the status, and nothing else. Every meaning makes its checks before its
first write, so no write is there to discard, and `pc` stays as the step has left it. -/
def State.raise (s : State) (c : Condition) : State :=
  { s with halted := some c, status := .condition c }

/-- `report c` (R27, R78): the status only, and the instruction completes. -/
def State.report (s : State) (c : Condition) : State := { s with status := .condition c }

/-- A stack failure under `STACK_POLICY` (R19): raised under `Fatal`, and reported on the state `cont` with which the
instruction completes under `ClampContinue` (R81, R83). -/
def State.stackFailure (s cont : State) (c : Condition) : State :=
  match s.params.stackPolicy with
  | .fatal => s.raise c
  | .clampContinue => cont.report c

/-- `initialize()` (R137): every element of R29 at its reset value, whatever it was, and so the only way out of
`halted` (R40, R124). The parameters are not state, and draws that were made stay made (log entry 16). -/
def State.coreInit (s : State) : State := { State.resetWith s.params with draws := s.draws }

/-! ### `Addr` (R25) -/

/-- `Addr(a, kind)`: the address, or the condition it raises. -/
def addr (p : OorPolicy) (kind : AccessKind) (pc0 : Word) (a : Nat) : Except Condition Nat :=
  if a < Config.memSize then .ok a
  else match p with
    | .mask => .ok (a % Config.memSize)
    | .report => .error (.outOfRangeAccess kind a pc0)

/-- `Addr` of `n` addresses from `base` upward, in order: all of them, or the condition of the first that raises. -/
def addrs (p : OorPolicy) (kind : AccessKind) (pc0 : Word) : (base n : Nat) → Except Condition (List Nat)
  | _, 0 => .ok []
  | base, n + 1 =>
    match addr p kind pc0 base with
    | .error c => .error c
    | .ok a =>
      match addrs p kind pc0 (base + 1) n with
      | .error c => .error c
      | .ok as => .ok (a :: as)

/-! ### The parts of a step (40_step.md) -/

/-- Fetch (R74, R49): the word at `pc` and `pc + 1`, untruncated addresses, big-endian. -/
def State.fetch (s : State) : Except Condition Word :=
  match addr s.params.oorPolicy .fetch s.pc s.pc.toNat with
  | .error c => .error c
  | .ok a0 =>
    match addr s.params.oorPolicy .fetch s.pc (s.pc.toNat + 1) with
    | .error c => .error c
    | .ok a1 => .ok (wordOfBytes (s.readByte a0) (s.readByte a1))

/-- The pre-advance (R75), which also sets the status to `Ok` until the execute phase says otherwise (R79). -/
def State.preAdvance (s : State) : State := { s with pc := s.pc + 2, status := .ok }

/-- A step while `halted` holds `c`: only the status is returned (R72). -/
def State.haltedStep (s : State) (c : Condition) : State := { s with status := .halted c }

/-- A step whose fetch raised `c`: no pre-advance (R74, R77). -/
def State.fetchFaultStep (s : State) (c : Condition) : State := s.raise c

/-- A step that fetched the unmapped word `w`: the pre-advance and the status (R76). -/
def State.unknownStep (s : State) (w : Word) : State :=
  { s.preAdvance with status := .unknownInstruction w s.pc }

/-- The state that can fetch: not halted, and `pc` where a fetch does not raise (else at 0x200). For
`withFetchWord` only. -/
def State.readyToFetch (s : State) : State :=
  { s with
    halted := none
    pc := if s.params.oorPolicy = .mask ∨ s.pc.toNat + 1 < Config.memSize then s.pc else 0x200 }

/-- The state with the word `w` stored where its next fetch reads it. -/
def State.placeWord (s : State) (w : Word) : State :=
  (s.writeByte (s.pc.toNat % Config.memSize) (highByte w)).writeByte
    ((s.pc.toNat + 1) % Config.memSize) (lowByte w)

end Sys2Proof.Machine
end

