-- ==== Sys2Proof/Machine/Flags.lean ====
section
/-! DEFINITION. Every computation of a flag (42_register_alu.md R89), the results beside them, and the order in which
a result and its flag are written (R90). -/

namespace Sys2Proof.Machine

/-- The value of a flag in VF. -/
def flagByte (b : Bool) : Byte := if b then 1 else 0

/-- `(a + b) mod 256` (R89). -/
def addResult (a b : Byte) : Byte := BitVec.ofNat 8 (a.toNat + b.toNat)
/-- The carry of 8XY4: 1 exactly when `a + b > 255` (R89, R97). -/
def carryFlag (a b : Byte) : Bool := decide (a.toNat + b.toNat > 255)

/-- `(a + 256 - b) mod 256` (R89). -/
def subResult (a b : Byte) : Byte := BitVec.ofNat 8 (a.toNat + 256 - b.toNat)
/-- The flag of a subtraction: 1 exactly when `a >= b`, no borrow (R89, R98, R100). -/
def noBorrowFlag (a b : Byte) : Bool := decide (a.toNat ≥ b.toNat)

/-- `a >> 1` (R99). -/
def shrResult (a : Byte) : Byte := a >>> 1
/-- The bit shifted out to the right, bit 0 (R99). -/
def shrFlag (a : Byte) : Bool := a.getLsbD 0

/-- `(a << 1) mod 256` (R101). -/
def shlResult (a : Byte) : Byte := a <<< 1
/-- The bit shifted out to the left, bit 7 (R101). -/
def shlFlag (a : Byte) : Bool := a.getLsbD 7

/-- `VF <- flag`. -/
def State.setFlag (s : State) (f : Bool) : State := s.setReg VF (flagByte f)

/-- `V[x] <- result`, then `VF <- flag` last (R90, log entry 10). -/
def State.setResultFlag (s : State) (x : Reg) (r : Byte) (f : Bool) : State := (s.setReg x r).setFlag f

end Sys2Proof.Machine
end

