-- ==== Sys2Proof/Machine/Operands.lean ====
section
/-! DEFINITION. The operand forms: immediates (30_encoding.md R63), the key that a register names (00_scope.md R25),
the data operand `I + k` (43_index_memory.md R103), and the input of CXNN. -/

namespace Sys2Proof.Machine

/-- `zext(NNN)` (R63). -/
def zextNNN (nnn : Addr12) : Word := nnn.setWidth 16

/-- A register's value as a 16-bit number. -/
def zextByte (b : Byte) : Word := b.setWidth 16

/-- `KeyIndex(v)` (R25): the key, or the condition it raises. -/
def keyIndex (p : OorPolicy) (pc0 : Word) (v : Byte) : Except Condition (Fin 16) :=
  if h : v.toNat < 16 then .ok ⟨v.toNat, h⟩
  else match p with
    | .mask => .ok ⟨v.toNat % 16, Nat.mod_lt _ (by decide)⟩
    | .report => .error (.outOfRangeAccess .keypad v.toNat pc0)

/-- The key that `V[x]` names. -/
def State.keyOperand (s : State) (x : Reg) : Except Condition (Fin 16) :=
  keyIndex s.params.oorPolicy s.pc0 (s.reg x)

/-- `Addr(I + k, Data)` for every k below `n`, untruncated, in order (R103). -/
def State.dataAddrs (s : State) (n : Nat) : Except Condition (List Nat) :=
  addrs s.params.oorPolicy .data s.pc0 s.I.toNat n

/-- An execute phase on what a check gave, or on the condition that the check raised: all checks come first, so a
raise finds no write to discard (R77). -/
def State.checked {α : Type} (s : State) (check : Except Condition α) (run : α → State) : Result :=
  match check with
  | .ok a => .next (run a)
  | .error c => .next (s.raise c)

/-- The keys in the order in which FX0A looks at them (R115). -/
def keyOrder : List (Fin 16) := [0, 1, 2, 3, 4, 5, 6, 7, 8, 9, 10, 11, 12, 13, 14, 15]

/-- The pressed key of the lowest index, if any (R115). -/
def lowestKey (key : Vector Bool 16) : Option (Fin 16) := keyOrder.find? fun k => key[k.val]

/-- The next random byte, a free value (R20, log entry 3). -/
def State.drawByte (s : State) : Byte := Config.randomByte s.draws

/-- The state after a draw. -/
def State.nextDraw (s : State) : State := { s with draws := s.draws + 1 }

end Sys2Proof.Machine
end

