-- ==== Sys2Proof/Machine/Alu.lean ====
section
/-! DEFINITION. Register and ALU instructions (42_register_alu.md R89 to R102). -/

namespace Sys2Proof.Machine

/-- LD Vx, NN (R91). -/
def execLdVxNn (x : Reg) (nn : Byte) (s : State) : Result := .next (s.setReg x nn)

/-- ADD Vx, NN (R92): no carry. -/
def execAddVxNn (x : Reg) (nn : Byte) (s : State) : Result := .next (s.setReg x (addResult (s.reg x) nn))

/-- LD Vx, Vy (R93). -/
def execLdVxVy (x y : Reg) (s : State) : Result := .next (s.setReg x (s.reg y))

/-- OR Vx, Vy (R94): VF is not cleared. -/
def execOr (x y : Reg) (s : State) : Result := .next (s.setReg x (s.reg x ||| s.reg y))

/-- AND Vx, Vy (R95): VF is not cleared. -/
def execAnd (x y : Reg) (s : State) : Result := .next (s.setReg x (s.reg x &&& s.reg y))

/-- XOR Vx, Vy (R96): VF is not cleared. -/
def execXor (x y : Reg) (s : State) : Result := .next (s.setReg x (s.reg x ^^^ s.reg y))

/-- ADD Vx, Vy (R97). -/
def execAddVxVy (x y : Reg) (s : State) : Result :=
  .next (s.setResultFlag x (addResult (s.reg x) (s.reg y)) (carryFlag (s.reg x) (s.reg y)))

/-- SUB Vx, Vy (R98). -/
def execSub (x y : Reg) (s : State) : Result :=
  .next (s.setResultFlag x (subResult (s.reg x) (s.reg y)) (noBorrowFlag (s.reg x) (s.reg y)))

/-- SHR Vx (R99): Y is ignored. -/
def execShr (x : Reg) (s : State) : Result :=
  .next (s.setResultFlag x (shrResult (s.reg x)) (shrFlag (s.reg x)))

/-- SUBN Vx, Vy (R100). -/
def execSubn (x y : Reg) (s : State) : Result :=
  .next (s.setResultFlag x (subResult (s.reg y) (s.reg x)) (noBorrowFlag (s.reg y) (s.reg x)))

/-- SHL Vx (R101): Y is ignored. -/
def execShl (x : Reg) (s : State) : Result :=
  .next (s.setResultFlag x (shlResult (s.reg x)) (shlFlag (s.reg x)))

/-- RND Vx, NN on the random input `rnd` (R102). -/
def State.rndWith (s : State) (rnd : Byte) (x : Reg) (nn : Byte) : State := s.setReg x (rnd &&& nn)

/-- RND Vx, NN (R102): one fresh draw for each execution (R20). -/
def execRnd (x : Reg) (nn : Byte) (s : State) : Result := .next (s.nextDraw.rndWith s.drawByte x nn)

end Sys2Proof.Machine
end

