-- ==== Sys2Proof/Machine/Control.lean ====
section
/-! DEFINITION. Control flow instructions (41_control_flow.md R81 to R88). `s.pc` is the pre-advanced value (R73). -/

namespace Sys2Proof.Machine

/-- RET (R81). -/
def execRet (s : State) : Result :=
  match s.pop with
  | none => .next (s.stackFailure s (.stackUnderflow s.pc0))
  | some (a, t) => .next (t.setPc a)

/-- JP NNN (R82). -/
def execJp (nnn : Addr12) (s : State) : Result := .next (s.setPc (zextNNN nnn))

/-- CALL NNN (R83): the pushed value is the pre-advanced `pc`; an overflowing CALL that continues still jumps. -/
def execCall (nnn : Addr12) (s : State) : Result :=
  match s.push s.pc with
  | none => .next (s.stackFailure (s.setPc (zextNNN nnn)) (.stackOverflow s.pc0))
  | some t => .next (t.setPc (zextNNN nnn))

/-- SE Vx, NN (R84). -/
def execSeVxNn (x : Reg) (nn : Byte) (s : State) : Result := .next (s.skipIf (s.reg x == nn))

/-- SNE Vx, NN (R85). -/
def execSneVxNn (x : Reg) (nn : Byte) (s : State) : Result := .next (s.skipIf (s.reg x != nn))

/-- SE Vx, Vy (R86). The low nibble is ignored. -/
def execSeVxVy (x y : Reg) (s : State) : Result := .next (s.skipIf (s.reg x == s.reg y))

/-- SNE Vx, Vy (R87). The low nibble is ignored. -/
def execSneVxVy (x y : Reg) (s : State) : Result := .next (s.skipIf (s.reg x != s.reg y))

/-- JP V0, NNN (R88). -/
def execJpV0 (nnn : Addr12) (s : State) : Result := .next (s.setPc (zextNNN nnn + zextByte (s.reg 0)))

end Sys2Proof.Machine
end

