-- ==== Sys2Proof/Machine/Display.lean ====
section
/-! DEFINITION. Display instructions (44_display.md R110 to R112). -/

namespace Sys2Proof.Machine

/-- The cell `fb[x, y]` (R37); off the display there is no cell, and the answer is off. -/
def Display.cell (d : Display) (x y : Nat) : Bool :=
  match d[y]? with
  | some row => (row[x]?).getD false
  | none => false

/-- `fb[x, y] <- b`. -/
def Display.setCell (d : Display) (x y : Nat) (b : Bool) : Display :=
  if h : y < 32 then d.set y (d[y].setIfInBounds x b) else d

/-- Every cell 0. -/
def Display.blank : Display := Vector.replicate 32 (Vector.replicate 64 false)

/-- A display and the collision flag of the draw so far. -/
abbrev Canvas := Display × Bool

/-- A sprite bit of 1 on the cell (x, y): the flag if the cell was on, then XOR (R111). -/
def plot (x y : Nat) (c : Canvas) : Canvas :=
  (Display.setCell c.1 x y (!Display.cell c.1 x y), c.2 || Display.cell c.1 x y)

/-- The bits of a sprite byte in the order drawn, bit 7 first (R111). -/
def spriteBits (b : Byte) : List Bool :=
  [b.getLsbD 7, b.getLsbD 6, b.getLsbD 5, b.getLsbD 4, b.getLsbD 3, b.getLsbD 2, b.getLsbD 1, b.getLsbD 0]

/-- One row of a sprite from column `x` on; a column at or past 64 stops the row, no horizontal wrap (R111). -/
def drawRow (y : Nat) : (x : Nat) → List Bool → Canvas → Canvas
  | _, [], c => c
  | x, bit :: bits, c =>
    if x ≥ Config.displayW then c
    else drawRow y (x + 1) bits (if bit then plot x y c else c)

/-- The rows of a sprite from row `y` on, each from column `x0` (R111). -/
def drawRows (x0 : Nat) : (y : Nat) → List Byte → Canvas → Canvas
  | _, [], c => c
  | y, byte :: bytes, c => drawRows x0 (y + 1) bytes (drawRow y x0 (spriteBits byte) c)

/-- The start column, `V[X] & 63` (R111). -/
def State.drawX (s : State) (x : Reg) : Nat := (s.reg x).toNat &&& (Config.displayW - 1)
/-- The start row, `V[Y] & 31` (R111). -/
def State.drawY (s : State) (y : Reg) : Nat := (s.reg y).toNat &&& (Config.displayH - 1)
/-- How many rows are drawn: `min(N, 32 - y0)` (R111). -/
def drawnRows (n : Nibble) (y0 : Nat) : Nat := min n.toNat (Config.displayH - y0)

/-- The display and VF after a draw. -/
def State.setCanvas (s : State) (c : Canvas) : State := (s.setFb c.1).setFlag c.2

/-- CLS (R110). -/
def execCls (s : State) : Result := .next (s.setFb Display.blank)

/-- DRW Vx, Vy, N (R111): rows that are not drawn are neither read nor checked (log entry 14). -/
def execDrw (x y : Reg) (n : Nibble) (s : State) : Result :=
  s.checked (s.dataAddrs (drawnRows n (s.drawY y))) fun as =>
    s.setCanvas (drawRows (s.drawX x) (s.drawY y) (s.readBytes as) (s.fb, false))

end Sys2Proof.Machine
end

