-- ==== Sys2Proof/Machine/IndexMemory.lean ====
section
/-! DEFINITION. Index register and memory instructions (43_index_memory.md R103 to R109). None of them changes `I` as
a side effect of an access (R103). -/

namespace Sys2Proof.Machine

/-- LD I, NNN (R104). -/
def execLdI (nnn : Addr12) (s : State) : Result := .next (s.setI (zextNNN nnn))

/-- ADD I, Vx (R105): no flag, no range check. -/
def execAddIVx (x : Reg) (s : State) : Result := .next (s.setI (s.I + zextByte (s.reg x)))

/-- LD F, Vx (R106): the full register, not its low nibble. -/
def execLdFVx (x : Reg) (s : State) : Result :=
  .next (s.setI (BitVec.ofNat 16 (s.params.fontBase.val + (s.reg x).toNat * Config.glyphBytes)))

/-- The decimal digits of a byte, hundreds first (R107). -/
def decimalDigits (v : Byte) : List Byte :=
  [BitVec.ofNat 8 (v.toNat / 100), BitVec.ofNat 8 (v.toNat / 10 % 10), BitVec.ofNat 8 (v.toNat % 10)]

/-- LD B, Vx (R107). -/
def execLdBVx (x : Reg) (s : State) : Result :=
  s.checked (s.dataAddrs 3) fun as => s.writeBytes as (decimalDigits (s.reg x))

/-- LD [I], Vx (R108). -/
def execLdMemVx (x : Reg) (s : State) : Result :=
  s.checked (s.dataAddrs (x.val + 1)) fun as => s.writeBytes as (s.regsUpTo x)

/-- LD Vx, [I] (R109). -/
def execLdVxMem (x : Reg) (s : State) : Result :=
  s.checked (s.dataAddrs (x.val + 1)) fun as => s.setRegs (s.readBytes as)

end Sys2Proof.Machine
end

