-- ==== Sys2Proof/Machine/InputTimer.lean ====
section
/-! DEFINITION. Input and timer instructions (45_input_timer.md R113 to R118). -/

namespace Sys2Proof.Machine

/-- SKP Vx (R113). -/
def execSkp (x : Reg) (s : State) : Result :=
  s.checked (s.keyOperand x) fun k => s.skipIf s.key[k.val]

/-- SKNP Vx (R114). -/
def execSknp (x : Reg) (s : State) : Result :=
  s.checked (s.keyOperand x) fun k => s.skipIf (!s.key[k.val])

/-- LD Vx, K (R115): the rewind to `pc0`, undone when a key is pressed. -/
def execLdVxK (x : Reg) (s : State) : Result :=
  match lowestKey s.key with
  | none => .next (s.setPc s.pc0)
  | some k => .next (((s.setPc s.pc0).setReg x (BitVec.ofNat 8 k.val)).setPc (s.pc0 + 2))

/-- LD Vx, DT (R116). -/
def execLdVxDt (x : Reg) (s : State) : Result := .next (s.setReg x s.DT)

/-- LD DT, Vx (R117). -/
def execLdDtVx (x : Reg) (s : State) : Result := .next (s.setDT (s.reg x))

/-- LD ST, Vx (R118). -/
def execLdStVx (x : Reg) (s : State) : Result := .next (s.setST (s.reg x))

end Sys2Proof.Machine
end

