-- ==== Sys2Proof/Machine/Step.lean ====
section
/-! DEFINITION. `step()` (40_step.md R71): the latch, fetch, decode, pre-advance, execute. -/

namespace Sys2Proof.Machine

/-- One step. The order of its checks is the priority of R122. -/
def step (s : State) : Host.Outcome State Fault Refusal :=
  match s.halted with
  | some c => .next (s.haltedStep c)
  | none =>
    match s.fetch with
    | .error c => .next (s.fetchFaultStep c)
    | .ok w =>
      match decodeWord w with
      | .error _ => .next (s.unknownStep w)
      | .ok i => exec i s.preAdvance

/-- `s` with the instruction of the bits `w` stored where `step` fetches its next instruction (log entry 19). -/
def State.withFetchWord (s : State) (nbits w : Nat) : State := s.readyToFetch.placeWord (tableWord nbits w)

end Sys2Proof.Machine
end

