-- ==== Sys2Proof/Machine/Trace.lean ====
section
/-! DEFINITION. The optional trace record of a step (40_step.md R80, 60_exceptions.md R135): an output computed from
the states before and after, which nothing reads (log entry 20). -/

namespace Sys2Proof.Machine

/-- The special registers whose changes a record lists: all seven of R41, `halted` included. R80 does not say which of
them count as registers: DESIGN CHOICE, safe (log entry 20). -/
inductive SpecialReg
  | pc
  | I
  | SP
  | DT
  | ST
  | key
  | halted
deriving DecidableEq, Repr

/-- What a special register holds: a number, the 16 keys, or the latch. -/
inductive SpecialValue
  | number (n : Nat)
  | keys (k : Vector Bool 16)
  | latch (c : Option Condition)
deriving DecidableEq, Repr

/-- A change of a register: its value before and after. -/
structure Delta (ρ α : Type) where
  register : ρ
  before : α
  after : α
deriving DecidableEq, Repr

/-- The trace record of R80. There is no word when the step did not fetch one, and no instruction when the word is
unmapped. VF is among the general registers, so its change is the flag's; a latch that the step sets is the change of
`halted`. -/
structure TraceRecord where
  pc0 : Word
  word : Option Word
  instr : Option Instr
  status : Status
  registers : List (Delta Reg Nat)
  specials : List (Delta SpecialReg SpecialValue)
deriving DecidableEq, Repr

/-- The general registers in order. -/
def allRegs : List Reg := [0, 1, 2, 3, 4, 5, 6, 7, 8, 9, 10, 11, 12, 13, 14, 15]

/-- The special registers in the order of R41. -/
def allSpecials : List SpecialReg := [.pc, .I, .SP, .DT, .ST, .key, .halted]

/-- The value of a special register. -/
def State.special (s : State) : SpecialReg → SpecialValue
  | .pc => .number s.pc.toNat
  | .I => .number s.I.toNat
  | .SP => .number s.SP.val
  | .DT => .number s.DT.toNat
  | .ST => .number s.ST.toNat
  | .key => .keys s.key
  | .halted => .latch s.halted

/-- The registers whose value differs, of those listed. -/
def deltas {ρ α : Type} [DecidableEq α] (before after : ρ → α) (rs : List ρ) : List (Delta ρ α) :=
  (rs.filter fun r => decide (before r ≠ after r)).map fun r => ⟨r, before r, after r⟩

/-- The word that a step from `s` fetches: none while halted (R72) or when the fetch raises (R74). -/
def State.fetchedWord (s : State) : Option Word :=
  match s.halted with
  | some _ => none
  | none =>
    match s.fetch with
    | .ok w => some w
    | .error _ => none

/-- The instruction that a step from `s` executes. -/
def State.currentInstr (s : State) : Option Instr :=
  match s.fetchedWord with
  | none => none
  | some w =>
    match decodeWord w with
    | .ok i => some i
    | .error _ => none

/-- The record of a step from `s` to `t`. -/
def traceRecord (s t : State) : TraceRecord :=
  { pc0 := s.pc
    word := s.fetchedWord
    instr := s.currentInstr
    status := t.status
    registers := deltas (fun r => (s.reg r).toNat) (fun r => (t.reg r).toNat) allRegs
    specials := deltas s.special t.special allSpecials }

end Sys2Proof.Machine
end

