-- ==== Sys2Proof/WellFormed.lean ====
section
/-! DEFINITION. Well-formedness. An operand of `Instr` cannot be out of range: its type has the width of its field
(R62, R63), so an instruction needs no range check. What is left to check: that a row of the opcode map is
consistent and overlaps no other row (R66), that an instruction is written the way the spec's assembler writes it
(R69), and that a program image fits in memory (R138). Ill-formed terms for each check: Tests/Slice0.lean. -/

namespace Sys2Proof

/-- A row's pattern has no bit outside its mask, so some word matches it. -/
def OpcodeRow.wf (r : OpcodeRow) : Bool := r.pattern &&& r.mask == r.pattern

/-- No word matches both rows: they differ in a bit that both masks fix. -/
def OpcodeRow.disjoint (r q : OpcodeRow) : Bool :=
  r.pattern &&& (r.mask &&& q.mask) != q.pattern &&& (r.mask &&& q.mask)

/-- An opcode map is well formed: each row is, and "no two rows match the same word" (R66). -/
abbrev OpcodeTableWf (t : List OpcodeRow) : Prop :=
  (∀ r ∈ t, r.wf = true) ∧ t.Pairwise fun r q => r.disjoint q = true

/-- The instruction is spelled canonically: the low nibble that 5XYn and 9XYn ignore is 0, as the assembler emits
it (R65, R69). Every other spelling executes too, with the same result (R68). -/
def Instr.canonical : Instr → Bool
  | .cls => true
  | .ret => true
  | .jp _ => true
  | .call _ => true
  | .seVxNn _ _ => true
  | .sneVxNn _ _ => true
  | .seVxVy _ _ n => n == 0
  | .ldVxNn _ _ => true
  | .addVxNn _ _ => true
  | .ldVxVy _ _ => true
  | .or _ _ => true
  | .and _ _ => true
  | .xor _ _ => true
  | .addVxVy _ _ => true
  | .sub _ _ => true
  | .shr _ _ => true
  | .subn _ _ => true
  | .shl _ _ => true
  | .sneVxVy _ _ n => n == 0
  | .ldI _ => true
  | .jpV0 _ => true
  | .rnd _ _ => true
  | .drw _ _ _ => true
  | .skp _ => true
  | .sknp _ => true
  | .ldVxDt _ => true
  | .ldVxK _ => true
  | .ldDtVx _ => true
  | .ldStVx _ => true
  | .addIVx _ => true
  | .ldFVx _ => true
  | .ldBVx _ => true
  | .ldMemVx _ => true
  | .ldVxMem _ => true

/-- A program image that `load` accepts (R138): any bytes at all (R6), at most 3584 of them. -/
def imageFits (image : List Byte) : Bool := image.length ≤ Config.loadCapacity

end Sys2Proof
end

