-- ==== Sys2Proof/Machine/Transactions.lean ====
section
/-! DEFINITION. The host interface (60_exceptions.md R119 to R133): the seven transactions, what each returns, and a
schedule of them. `core.step` is the transaction `step`; the others are the host's to issue (log entry 18). -/

namespace Sys2Proof.Machine

/-! ### The transactions other than `step` -/

/-- `load(bytes)` (R138): the check first, and nothing but memory is written. -/
def State.load (s : State) (image : List Byte) : State × LoadStatus :=
  if image.length > Config.loadCapacity then (s, .loadError image.length)
  else ({ s with mem := Memory.writeFrom s.params s.mem Config.programStart image }, .ok)

/-- A timer's decrement, floored at zero (R127). -/
def tickDown (b : Byte) : Byte := if b = 0 then 0 else b - 1

/-- `tick_timers()` (R127). -/
def State.tickTimers (s : State) : State := { s with DT := tickDown s.DT, ST := tickDown s.ST }

/-- `set_input(k)` (R130): bit i of the argument is key i. -/
def State.setInput (s : State) (k : Word) : State := s.setKey (Vector.ofFn fun i => k.getLsbD i.val)

/-- `display_snapshot()` (R129): all 2048 cells in row-major order. -/
def State.displaySnapshot (s : State) : List Bool := (s.fb.toList.map Vector.toList).flatten

/-- `sound_timer_active()` (R131). -/
def State.soundTimerActive (s : State) : Bool := decide (s.ST.toNat > 0)

/-! ### The interface as a whole (R133) -/

/-- A transaction with what the host sends. The random byte of a step is the free value of log entry 3; `traced` says
whether an observer takes the trace record (R80). -/
inductive Transaction
  | init
  | load (image : List Byte)
  | step (traced : Bool)
  | tickTimers
  | setInput (k : Word)
  | displaySnapshot
  | soundTimerActive
deriving DecidableEq, Repr

/-- What the CORE returns (R133). -/
inductive Response
  | nothing
  | loaded (r : LoadStatus)
  | stepped (r : Status) (trace : Option TraceRecord)
  | cells (c : List Bool)
  | active (b : Bool)
deriving DecidableEq, Repr

/-- The condition codes of R120. -/
def Status.code : Status → Nat
  | .ok => 0
  | .unknownInstruction _ _ => 1
  | .condition (.stackOverflow _) => 2
  | .condition (.stackUnderflow _) => 3
  | .condition (.outOfRangeAccess _ _ _) => 4
  | .halted _ => 6

/-- The codes that `load` returns (R120). -/
def LoadStatus.code : LoadStatus → Nat
  | .ok => 0
  | .loadError _ => 5

/-- One transaction: the next state and what the CORE returns. -/
def transact (t : Transaction) (s : State) : Host.Outcome (State × Response) Fault Refusal :=
  match t with
  | .init => .next (s.coreInit, .nothing)
  | .load image => .next ((s.load image).1, .loaded (s.load image).2)
  | .step traced =>
    match step s with
    | .next u => .next (u, .stepped u.status (if traced then some (traceRecord s u) else none))
    | .fault r => .fault r
    | .refused r => .refused r
  | .tickTimers => .next (s.tickTimers, .nothing)
  | .setInput k => .next (s.setInput k, .nothing)
  | .displaySnapshot => .next (s, .cells s.displaySnapshot)
  | .soundTimerActive => .next (s, .active s.soundTimerActive)

/-- A schedule: any sequence of transactions, in the order the driver issues them (R56, R128). -/
def runSchedule : List Transaction → State → Result
  | [], s => .next s
  | t :: ts, s =>
    match transact t s with
    | .next (u, _) => runSchedule ts u
    | .fault r => .fault r
    | .refused r => .refused r

/-- What the host does before the first frame (R139). -/
def bootSchedule (image : List Byte) : List Transaction := [.init, .load image]

/-- One frame of the host (R139): the input, a batch of `n` steps, a tick, and the reads at the batch boundary. -/
def frameSchedule (k : Word) (n : Nat) : List Transaction :=
  .setInput k :: (List.replicate n (.step false) ++ [.tickTimers, .displaySnapshot, .soundTimerActive])

end Sys2Proof.Machine
end

