-- ==== Sys2Proof/Safety.lean ====
section
/-! DEFINITION. What counts as the end of a run and as a failed one (70_reset_and_hazards.md R141), the invariant of
the machine, and the vocabulary in which frames are stated. -/

namespace Sys2Proof.Machine

/-! ### The end of a run (R141) -/

/-- The state is faulted: "never an acceptable end". -/
def Faulted (s : State) : Prop := s.halted ≠ none

/-- The state is at rest: not halted, and the word at `pc` is a jump to itself. -/
def AtRest (s : State) : Prop :=
  s.halted = none ∧ ∃ nnn : Addr12, s.fetch = .ok (wordA 0x1 nnn) ∧ nnn.toNat = s.pc.toNat

/-- The state waits in FX0A (R42, R115): the word at `pc` is FX0A and no key is pressed. Not at rest. -/
def WaitingForKey (s : State) : Prop :=
  s.halted = none ∧ ∃ x : Reg, s.fetch = .ok (wordXK 0xF x 0x0A) ∧ ∀ k : Fin 16, s.key[k.val] = false

/-! ### The invariant -/

/-- The condition is fatal under the parameters (R120): a stack failure under `Fatal` only, an out-of-range access
under `Report` only. -/
def Condition.fatalUnder (p : Params) : Condition → Prop
  | .stackOverflow _ => p.stackPolicy = .fatal
  | .stackUnderflow _ => p.stackPolicy = .fatal
  | .outOfRangeAccess _ _ _ => p.oorPolicy = .report

/-- The value that an out-of-range access reports is out of its range (R25, R120). -/
def Condition.outside : Condition → Prop
  | .stackOverflow _ => True
  | .stackUnderflow _ => True
  | .outOfRangeAccess .keypad v _ => 16 ≤ v ∧ v < 256
  | .outOfRangeAccess _ a _ => 4096 ≤ a

/-- What every transaction keeps: memory in its canonical form, and the latch empty or holding a condition that is
fatal under the parameters (R40). -/
structure Inv (s : State) : Prop where
  memory : Memory.wf s.params s.mem
  latch : ∀ c, s.halted = some c → c.fatalUnder s.params ∧ c.outside

/-! ### The sprite of a draw -/

/-- The bit that a sprite at (x0, y0) with rows `bytes` puts on the cell (x, y): bit `7 - (x - x0)` of row `y - y0`,
and 0 outside the sprite or past the right edge (R111, R112). -/
def spriteBit (x0 y0 : Nat) (bytes : List Byte) (x y : Nat) : Bool :=
  decide (x0 ≤ x) && decide (x < x0 + 8) && decide (x < 64) && decide (y0 ≤ y) &&
    match bytes[y - y0]? with
    | some b => b.getLsbD (7 - (x - x0))
    | none => false

/-! ### Frames -/

/-- Every byte of memory outside `stored` reads in `t` as in `s`. -/
def MemSameOutside (s t : State) (stored : Nat → Prop) : Prop :=
  ∀ a, ¬ stored a → t.readByte a = s.readByte a

/-- Every general register outside `written` holds in `t` what it holds in `s`. -/
def RegsSameOutside (s t : State) (written : Reg → Prop) : Prop :=
  ∀ r, ¬ written r → t.reg r = s.reg r

/-- The parts of the state other than the general registers and memory. -/
inductive Part
  | pc
  | I
  | stack
  | fb
  | key
  | DT
  | ST
  | halted
  | status
  | draws
  | params
deriving DecidableEq, Repr

/-- The part `q` is the same in both states. The call stack is its entries, stale ones included, and its depth. -/
def Part.same (s t : State) : Part → Prop
  | .pc => t.pc = s.pc
  | .I => t.I = s.I
  | .stack => t.stack = s.stack ∧ t.SP = s.SP
  | .fb => t.fb = s.fb
  | .key => t.key = s.key
  | .DT => t.DT = s.DT
  | .ST => t.ST = s.ST
  | .halted => t.halted = s.halted
  | .status => t.status = s.status
  | .draws => t.draws = s.draws
  | .params => t.params = s.params

/-- `t` is `s` but for the general registers in `written`, the bytes of memory in `stored` and the parts listed. -/
structure SameBut (s t : State) (written : Reg → Prop) (stored : Nat → Prop) (changed : List Part) : Prop where
  regs : RegsSameOutside s t written
  mem : MemSameOutside s t stored
  parts : ∀ q, q ∉ changed → q.same s t

end Sys2Proof.Machine
end

