-- ==== Sys2Proof/Certificates/Slice0/Obligations.lean ====
section
/-! DEFINITION. The statements for the provers. `exec` runs on the pre-advanced state, so in a statement about `exec`
`s.pc` is the address of the instruction plus 2 and `s.pc - 2` is `pc0` (R73). A clause that rests on a decision of
the spec's own (92_eei_decisions.md) is named in the statement's docstring. -/

namespace Sys2Proof.Machine

/-! ### Vocabulary of the statements -/

/-- No general register. -/
def noRegs : Reg → Prop := fun _ => False
/-- No byte of memory. -/
def noBytes : Nat → Prop := fun _ => False
/-- One register. -/
def onlyReg (x : Reg) : Reg → Prop := fun r => r = x
/-- A register and VF. -/
def regAndFlag (x : Reg) : Reg → Prop := fun r => r = x ∨ r = VF

/-- The accesses `I + k` for k below `n` raise nothing: masked, none at all, or all below 4096 (R25, R103). -/
def DataInRange (s : State) (n : Nat) : Prop :=
  s.params.oorPolicy = .mask ∨ n = 0 ∨ s.I.toNat + n ≤ 4096

/-- `k` is the least offset below `n` whose address is out of range. -/
def LeastOffset (base n k : Nat) : Prop := k < n ∧ 4096 ≤ base + k ∧ ∀ j, j < k → base + j < 4096

/-- The state after a raise: the latch and the status, and nothing else (R77). -/
def raised (s : State) (c : Condition) : State := { s with halted := some c, status := .condition c }

/-- The conditions that the rule of an instruction names (R121). -/
def canRaise : Instr → Condition → Prop
  | .ret, .stackUnderflow _ => True
  | .call _, .stackOverflow _ => True
  | .drw _ _ _, .outOfRangeAccess .data _ _ => True
  | .ldBVx _, .outOfRangeAccess .data _ _ => True
  | .ldMemVx _, .outOfRangeAccess .data _ _ => True
  | .ldVxMem _, .outOfRangeAccess .data _ _ => True
  | .skp _, .outOfRangeAccess .keypad _ _ => True
  | .sknp _, .outOfRangeAccess .keypad _ _ => True
  | _, _ => False

/-- The general registers that an instruction writes (R32, R33). -/
def writesReg : Instr → Reg → Prop
  | .ldVxNn x _, r => r = x
  | .addVxNn x _, r => r = x
  | .ldVxVy x _, r => r = x
  | .or x _, r => r = x
  | .and x _, r => r = x
  | .xor x _, r => r = x
  | .addVxVy x _, r => r = x ∨ r = VF
  | .sub x _, r => r = x ∨ r = VF
  | .shr x _, r => r = x ∨ r = VF
  | .subn x _, r => r = x ∨ r = VF
  | .shl x _, r => r = x ∨ r = VF
  | .rnd x _, r => r = x
  | .drw _ _ _, r => r = VF
  | .ldVxDt x, r => r = x
  | .ldVxK x, r => r = x
  | .ldVxMem x, r => r ≤ x
  | _, _ => False

/-- The bytes of memory that an instruction stores to: the addresses that its own check gives (R46, R52). -/
def storesAt (s : State) : Instr → Nat → Prop
  | .ldBVx _, a => ∃ as, s.dataAddrs 3 = .ok as ∧ a ∈ as
  | .ldMemVx x, a => ∃ as, s.dataAddrs (x.val + 1) = .ok as ∧ a ∈ as
  | _, _ => False

/-- The other parts of the state that an instruction may change (R35 to R41): `pc` for the jumps, skips and FX0A, the
latch and the status for those of R121, and the model's own draw counter for CXNN. -/
def writesParts : Instr → List Part
  | .cls => [.fb]
  | .ret => [.pc, .stack, .halted, .status]
  | .jp _ => [.pc]
  | .call _ => [.pc, .stack, .halted, .status]
  | .seVxNn _ _ => [.pc]
  | .sneVxNn _ _ => [.pc]
  | .seVxVy _ _ _ => [.pc]
  | .sneVxVy _ _ _ => [.pc]
  | .ldI _ => [.I]
  | .jpV0 _ => [.pc]
  | .rnd _ _ => [.draws]
  | .drw _ _ _ => [.fb, .halted, .status]
  | .skp _ => [.pc, .halted, .status]
  | .sknp _ => [.pc, .halted, .status]
  | .ldVxK _ => [.pc]
  | .ldDtVx _ => [.DT]
  | .ldStVx _ => [.ST]
  | .addIVx _ => [.I]
  | .ldFVx _ => [.I]
  | .ldBVx _ => [.halted, .status]
  | .ldMemVx _ => [.halted, .status]
  | .ldVxMem _ => [.halted, .status]
  | _ => []

/-- Two states that differ at most in stale entries of the call stack, those at index SP and above (R36). -/
structure StaleEq (s t : State) : Prop where
  rest : t = { s with stack := t.stack }
  live : ∀ k : Fin 64, k.val < s.SP.val → t.stack[k.val] = s.stack[k.val]

/-- The sprite of a draw: one byte for each drawn row, at `I + r` (R111). -/
def spriteBytes (s : State) (rows : Nat) : List Byte :=
  (List.range rows).map fun r => s.readByte ((s.I.toNat + r) % 4096)

/-- Some bit of the sprite meets a cell that is on. -/
def Collides (d : Display) (x0 y0 : Nat) (bytes : List Byte) : Prop :=
  ∃ i j, i < 64 ∧ j < 32 ∧ spriteBit x0 y0 bytes i j = true ∧ Display.cell d i j = true

end Sys2Proof.Machine

open Sys2Proof Sys2Proof.Machine

/-! ### Encoding -/

/-- Decoding an encoded instruction gives it back, from its word and from its bytes (R61 to R66). -/
def Obligations.DecodeOfEncode : Prop :=
  (∀ i : Instr, decodeWord (encode i) = .ok i) ∧
    ∀ (i : Instr) (rest : List Byte), decodeBytes (encodeBytes i ++ rest) = .ok (i, rest)

/-- A word that decodes is the encoding of what it decodes to: no bit of it is dropped. For n of 5XYn and 9XYn, which
the spec's decision D11 ignores, and for Y of 8XY6 and 8XYE this holds because the model keeps the ignored fields as
operands, a choice of its own (log entry 11); the spec's assembler emits n = 0 (30_encoding.md section 6). -/
def Obligations.EncodeOfDecode : Prop :=
  ∀ (w : Word) (i : Instr), decodeWord w = .ok i → encode i = w

/-- The opcode map of 30_encoding.md section 4: 34 rows; a word decodes to an instruction of a row exactly when
`w & mask = match`; and no word matches two rows, which the spec derives. The masks of 5XYn and 9XYn are its decision
D11. -/
def Obligations.OpcodeMapSelectsInstruction : Prop :=
  opcodeTable.length = 34 ∧
    (∀ (w : Word) (r : OpcodeRow), r ∈ opcodeTable →
      (w &&& r.mask = r.pattern ↔ ∃ i, decodeWord w = .ok i ∧ i.row = r)) ∧
    (∀ (w : Word) (i : Instr), decodeWord w = .ok i → i.row ∈ opcodeTable) ∧
    ∀ (w : Word) (r q : OpcodeRow), r ∈ opcodeTable → q ∈ opcodeTable →
      w &&& r.mask = r.pattern → w &&& q.mask = q.pattern → r = q

/-- The unmapped words are exactly those of the table of 30_encoding.md section 5, each rejected under its own name. -/
def Obligations.UnmappedWordsExactly : Prop :=
  ∀ w : Word, (∀ e, decodeWord w = .error e → e = .unmapped w) ∧
    ((∃ e, decodeWord w = .error e) ↔
      (w.toNat / 4096 = 0x0 ∧ w ≠ 0x00E0 ∧ w ≠ 0x00EE) ∨
      (w.toNat / 4096 = 0x8 ∧ w.toNat % 16 ∈ [0x8, 0x9, 0xA, 0xB, 0xC, 0xD, 0xF]) ∨
      (w.toNat / 4096 = 0xE ∧ w.toNat % 256 ∉ [0x9E, 0xA1]) ∨
      (w.toNat / 4096 = 0xF ∧ w.toNat % 256 ∉ [0x07, 0x0A, 0x15, 0x18, 0x1E, 0x29, 0x33, 0x55, 0x65]))

/-- One word of each format, written out from the spec's tables and examples, decodes to its instruction. -/
def Obligations.SampleWordsDecode : Prop :=
  decodeWord 0x00EE = .ok .ret ∧ decodeWord 0x1228 = .ok (.jp 0x228) ∧
    decodeWord 0x3342 = .ok (.seVxNn 3 0x42) ∧ decodeWord 0x5127 = .ok (.seVxVy 1 2 7) ∧
    decodeWord 0x8014 = .ok (.addVxVy 0 1) ∧ decodeWord 0xD015 = .ok (.drw 0 1 5) ∧
    decodeWord 0xE29E = .ok (.skp 2) ∧ decodeWord 0xFA33 = .ok (.ldBVx 10) ∧
    decodeWord 0x8008 = .error (.unmapped 0x8008)

/-! ### The step -/

/-- A step runs the instruction at `pc`: not halted, and with both fetch addresses in range or masked, if the bytes at
`pc` and `pc + 1` decode to `i`, the step is the execute phase of `i` on the state with `pc` advanced by 2 and the
status `Ok` (40_step.md; the mod 2^16 is the spec's decision D9). -/
def Obligations.StepRunsDecodedInstruction : Prop :=
  ∀ (s : State) (i : Instr), s.halted = none →
    (s.params.oorPolicy = .mask ∨ s.pc.toNat + 1 < 4096) →
    decodeBytes [s.readByte (s.pc.toNat % 4096), s.readByte ((s.pc.toNat + 1) % 4096)] = .ok (i, []) →
    step s = exec i { s with pc := s.pc + 2, status := .ok }

/-- A step on an unmapped word makes the pre-advance and returns UnknownInstruction with the word and `pc0`; nothing
else changes and nothing is latched (40_step.md section 4; what the status carries is the spec's decision D26). -/
def Obligations.UnmappedWordIsPassedOver : Prop :=
  ∀ (s : State) (w : Word) (e : DecodeError), s.halted = none → s.fetch = .ok w → decodeWord w = .error e →
    step s = .next { s with pc := s.pc + 2, status := .unknownInstruction w s.pc }

/-- R49: the byte at the lower address is the high part of the word. -/
def Obligations.FetchIsBigEndian : Prop :=
  ∀ (s : State) (w : Word), s.fetch = .ok w →
    w.toNat = (s.readByte (s.pc.toNat % 4096)).toNat * 256 + (s.readByte ((s.pc.toNat + 1) % 4096)).toNat

/-- When a fetch raises, and what it then leaves (40_step.md section 2; the policy and the kept `pc` are the spec's
decisions D4 and D8): under Report exactly when `pc >= 0xFFF`, with the first address that is out of range, and then
the step latches the condition and leaves `pc`; under Mask never. -/
def Obligations.FetchOutOfRangeIsLatched : Prop :=
  (∀ s : State, (∃ w, s.fetch = .ok w) ↔ (s.params.oorPolicy = .mask ∨ s.pc.toNat < 0xFFF)) ∧
    ∀ s : State, s.halted = none → s.params.oorPolicy = .report → 0xFFF ≤ s.pc.toNat →
      ∃ k, LeastOffset s.pc.toNat 2 k ∧
        step s = .next (raised s (.outOfRangeAccess .fetch (s.pc.toNat + k) s.pc))

/-- A step while `halted` is set returns the latched condition and changes nothing else, `pc` and memory included
(40_step.md section 1; the latch is the spec's decision D6). -/
def Obligations.HaltedStepChangesNothing : Prop :=
  ∀ (s : State) (c : Condition), s.halted = some c → step s = .next { s with status := .halted c }

/-- No step waits or stops: from every state a step, and every execute phase, answers a next state ("no step ever
waits", 40_step.md section 1). -/
def Obligations.EveryStepCompletes : Prop :=
  (∀ (i : Instr) (s : State), ∃ t, exec i s = .next t) ∧ ∀ s : State, ∃ t, step s = .next t

/-- Which status a step can return from a state that is not halted (60_exceptions.md sections 1 and 2): Ok, the
fetch's condition, UnknownInstruction, or a condition that the rule of the executing instruction names. -/
def Obligations.StatusComesFromItsInstruction : Prop :=
  ∀ s t : State, s.halted = none → step s = .next t →
    t.status = .ok ∨
      (∃ a, t.status = .condition (.outOfRangeAccess .fetch a s.pc) ∧ s.fetchedWord = none) ∨
      (∃ w, t.status = .unknownInstruction w s.pc ∧ s.fetchedWord = some w ∧ s.currentInstr = none) ∨
      ∃ i c, t.status = .condition c ∧ s.currentInstr = some i ∧ canRaise i c

/-- A fatal condition is precise (60_exceptions.md section 3; the spec's decisions D6 to D8): the state after it is
the state before the step, plus the pre-advance unless the fetch raised, plus the latch and the status. -/
def Obligations.FatalConditionIsPrecise : Prop :=
  ∀ (s t : State) (c : Condition), s.halted = none → step s = .next t → t.halted = some c →
    t = raised { s with pc := if s.fetchedWord = none then s.pc else s.pc + 2 } c

/-- Only `initialize` clears the latch (10_state.md section 10; the spec's decision D6): over every schedule without it,
a halted machine stays halted on the same condition and keeps its registers, `pc`, `I`, call stack and display. -/
def Obligations.OnlyInitializeClearsTheLatch : Prop :=
  (∀ (ts : List Transaction) (s : State) (c : Condition), Transaction.init ∉ ts → s.halted = some c →
    ∃ t, runSchedule ts s = .next t ∧ t.halted = some c ∧ t.V = s.V ∧ t.pc = s.pc ∧ t.I = s.I ∧
      t.stack = s.stack ∧ t.SP = s.SP ∧ t.fb = s.fb) ∧
    ∀ s : State, ∃ t, transact .init s = .next (t, .nothing) ∧ t.halted = none

/-! ### Control flow -/

/-- RET (41_control_flow.md; the stack policy is the spec's decision D5): with an entry, `pc` is the top entry as
stored and the depth is one less; with none, StackUnderflow is latched under Fatal and only reported under
ClampContinue, `pc` staying past the RET. -/
def Obligations.RetPopsReturnAddress : Prop :=
  decodeWord 0x00EE = .ok .ret ∧ ∀ s : State,
    (∀ h : 0 < s.SP.val, ∃ t, exec .ret s = .next t ∧ t.pc = s.stack[s.SP.val - 1] ∧
      t.SP.val = s.SP.val - 1 ∧ t.stack = s.stack ∧ SameBut s t noRegs noBytes [.pc, .stack]) ∧
    (s.SP.val = 0 → s.params.stackPolicy = .fatal →
      exec .ret s = .next (raised s (.stackUnderflow (s.pc - 2)))) ∧
    (s.SP.val = 0 → s.params.stackPolicy = .clampContinue →
      exec .ret s = .next { s with status := .condition (.stackUnderflow (s.pc - 2)) })

/-- CALL (41_control_flow.md; the stack policy is the spec's decision D5): with room, the entry at the old depth is the
pre-advanced `pc`, every other entry is kept, and `pc` is NNN; with 64 entries, StackOverflow is latched under Fatal,
and under ClampContinue it is reported, nothing is pushed, and `pc` is NNN all the same. -/
def Obligations.CallPushesReturnAddress : Prop :=
  (∀ nnn : Addr12, decodeWord (BitVec.ofNat 16 (0x2000 + nnn.toNat)) = .ok (.call nnn)) ∧
    ∀ (nnn : Addr12) (s : State),
      (∀ h : s.SP.val < 64, ∃ t, exec (.call nnn) s = .next t ∧ t.stack[s.SP.val] = s.pc ∧
        (∀ k : Fin 64, k.val ≠ s.SP.val → t.stack[k.val] = s.stack[k.val]) ∧ t.SP.val = s.SP.val + 1 ∧
        t.pc.toNat = nnn.toNat ∧ SameBut s t noRegs noBytes [.pc, .stack]) ∧
      (s.SP.val = 64 → s.params.stackPolicy = .fatal →
        exec (.call nnn) s = .next (raised s (.stackOverflow (s.pc - 2)))) ∧
      (s.SP.val = 64 → s.params.stackPolicy = .clampContinue →
        ∃ t, exec (.call nnn) s = .next t ∧ t.pc.toNat = nnn.toNat ∧
          t.status = .condition (.stackOverflow (s.pc - 2)) ∧ SameBut s t noRegs noBytes [.pc, .status])

/-- The round trip of 95_test_vectors.md L1.5, read as 90_conflicts.md C10 does: after a CALL with room, whatever runs
in between, a RET with the same call stack returns to the `pc` that the CALL pushed, at the depth before the CALL. -/
def Obligations.CallThenRetReturns : Prop :=
  ∀ (nnn : Addr12) (s t u : State), s.SP.val < 64 → exec (.call nnn) s = .next t →
    u.stack = t.stack → u.SP = t.SP →
    ∃ v, exec .ret u = .next v ∧ v.pc = s.pc ∧ v.SP = s.SP ∧
      ∀ k : Fin 64, k.val < s.SP.val → v.stack[k.val] = s.stack[k.val]

/-- R82, R88: the target of a jump, with no wrap and no check; the register of 0xBNNN is always V0. -/
def Obligations.JumpsSetPc : Prop :=
  (∀ nnn : Addr12, decodeWord (BitVec.ofNat 16 (0x1000 + nnn.toNat)) = .ok (.jp nnn) ∧
    decodeWord (BitVec.ofNat 16 (0xB000 + nnn.toNat)) = .ok (.jpV0 nnn)) ∧
    ∀ (nnn : Addr12) (s : State),
      (∃ t, exec (.jp nnn) s = .next t ∧ t.pc.toNat = nnn.toNat ∧ SameBut s t noRegs noBytes [.pc]) ∧
      ∃ t, exec (.jpV0 nnn) s = .next t ∧ t.pc.toNat = nnn.toNat + (s.reg 0).toNat ∧
        SameBut s t noRegs noBytes [.pc]

/-- R84, R85: a skip adds 2 more to `pc`, mod 2^16, exactly when V[X] equals, or differs from, NN. -/
def Obligations.ImmediateSkips : Prop :=
  (∀ (x : Reg) (nn : Byte),
    decodeWord (BitVec.ofNat 16 (0x3000 + x.val * 256 + nn.toNat)) = .ok (.seVxNn x nn) ∧
    decodeWord (BitVec.ofNat 16 (0x4000 + x.val * 256 + nn.toNat)) = .ok (.sneVxNn x nn)) ∧
    ∀ (x : Reg) (nn : Byte) (s : State),
      (∃ t, exec (.seVxNn x nn) s = .next t ∧
        t.pc.toNat = (if s.reg x = nn then (s.pc.toNat + 2) % 65536 else s.pc.toNat) ∧
        SameBut s t noRegs noBytes [.pc]) ∧
      ∃ t, exec (.sneVxNn x nn) s = .next t ∧
        t.pc.toNat = (if s.reg x = nn then s.pc.toNat else (s.pc.toNat + 2) % 65536) ∧
        SameBut s t noRegs noBytes [.pc]

/-- The register skips, for every value of the low nibble (41_control_flow.md; that the low nibble is ignored is the
spec's decision D11). -/
def Obligations.RegisterSkips : Prop :=
  (∀ (x y : Reg) (n : Nibble),
    decodeWord (BitVec.ofNat 16 (0x5000 + x.val * 256 + y.val * 16 + n.toNat)) = .ok (.seVxVy x y n) ∧
    decodeWord (BitVec.ofNat 16 (0x9000 + x.val * 256 + y.val * 16 + n.toNat)) = .ok (.sneVxVy x y n)) ∧
    ∀ (x y : Reg) (n : Nibble) (s : State),
      (∃ t, exec (.seVxVy x y n) s = .next t ∧
        t.pc.toNat = (if s.reg x = s.reg y then (s.pc.toNat + 2) % 65536 else s.pc.toNat) ∧
        SameBut s t noRegs noBytes [.pc]) ∧
      ∃ t, exec (.sneVxVy x y n) s = .next t ∧
        t.pc.toNat = (if s.reg x = s.reg y then s.pc.toNat else (s.pc.toNat + 2) % 65536) ∧
        SameBut s t noRegs noBytes [.pc]

/-! ### Registers and ALU -/

/-- R91, R93: an immediate or a register is copied into V[X], VF like any register. -/
def Obligations.RegisterLoads : Prop :=
  (∀ (x : Reg) (nn : Byte), decodeWord (BitVec.ofNat 16 (0x6000 + x.val * 256 + nn.toNat)) = .ok (.ldVxNn x nn)) ∧
    (∀ x y : Reg, decodeWord (BitVec.ofNat 16 (0x8000 + x.val * 256 + y.val * 16)) = .ok (.ldVxVy x y)) ∧
    ∀ (x y : Reg) (nn : Byte) (s : State),
      (∃ t, exec (.ldVxNn x nn) s = .next t ∧ t.reg x = nn ∧ SameBut s t (onlyReg x) noBytes []) ∧
      ∃ t, exec (.ldVxVy x y) s = .next t ∧ t.reg x = s.reg y ∧ SameBut s t (onlyReg x) noBytes []

/-- R92: the sum mod 256, with no carry into VF. -/
def Obligations.AddImmediateWraps : Prop :=
  (∀ (x : Reg) (nn : Byte),
    decodeWord (BitVec.ofNat 16 (0x7000 + x.val * 256 + nn.toNat)) = .ok (.addVxNn x nn)) ∧
    ∀ (x : Reg) (nn : Byte) (s : State), ∃ t, exec (.addVxNn x nn) s = .next t ∧
      (t.reg x).toNat = ((s.reg x).toNat + nn.toNat) % 256 ∧ SameBut s t (onlyReg x) noBytes []

/-- OR, AND and XOR bit by bit, VF not cleared (42_register_alu.md section 3; that OR leaves VF is the spec's own
inference from the source's table). -/
def Obligations.BitwiseOperations : Prop :=
  (∀ x y : Reg, decodeWord (BitVec.ofNat 16 (0x8001 + x.val * 256 + y.val * 16)) = .ok (.or x y) ∧
    decodeWord (BitVec.ofNat 16 (0x8002 + x.val * 256 + y.val * 16)) = .ok (.and x y) ∧
    decodeWord (BitVec.ofNat 16 (0x8003 + x.val * 256 + y.val * 16)) = .ok (.xor x y)) ∧
    ∀ (x y : Reg) (s : State),
      (∃ t, exec (.or x y) s = .next t ∧ SameBut s t (onlyReg x) noBytes [] ∧
        ∀ k, (t.reg x).getLsbD k = ((s.reg x).getLsbD k || (s.reg y).getLsbD k)) ∧
      (∃ t, exec (.and x y) s = .next t ∧ SameBut s t (onlyReg x) noBytes [] ∧
        ∀ k, (t.reg x).getLsbD k = ((s.reg x).getLsbD k && (s.reg y).getLsbD k)) ∧
      ∃ t, exec (.xor x y) s = .next t ∧ SameBut s t (onlyReg x) noBytes [] ∧
        ∀ k, (t.reg x).getLsbD k = ((s.reg x).getLsbD k != (s.reg y).getLsbD k)

/-- ADD Vx, Vy (42_register_alu.md section 3): VF is the carry of the old operands, always; V[X] is the sum mod 256
unless X is VF itself, which takes the flag, written last by 90_conflicts.md C2 (the spec's decision D10, log entry 10). -/
def Obligations.AddSetsCarry : Prop :=
  (∀ x y : Reg, decodeWord (BitVec.ofNat 16 (0x8004 + x.val * 256 + y.val * 16)) = .ok (.addVxVy x y)) ∧
    ∀ (x y : Reg) (s : State), ∃ t, exec (.addVxVy x y) s = .next t ∧
      (x ≠ VF → (t.reg x).toNat = ((s.reg x).toNat + (s.reg y).toNat) % 256) ∧
      (t.reg VF).toNat = (if (s.reg x).toNat + (s.reg y).toNat > 255 then 1 else 0) ∧
      SameBut s t (regAndFlag x) noBytes []

/-- SUB and SUBN (42_register_alu.md section 3): the difference mod 256 and the flag for no borrow, from the old
operands; the flag is written last (90_conflicts.md C2, the spec's decision D10, log entry 10). -/
def Obligations.SubtractionsSetNoBorrow : Prop :=
  (∀ x y : Reg, decodeWord (BitVec.ofNat 16 (0x8005 + x.val * 256 + y.val * 16)) = .ok (.sub x y) ∧
    decodeWord (BitVec.ofNat 16 (0x8007 + x.val * 256 + y.val * 16)) = .ok (.subn x y)) ∧
    ∀ (x y : Reg) (s : State),
      (∃ t, exec (.sub x y) s = .next t ∧
        (x ≠ VF → (t.reg x).toNat = ((s.reg x).toNat + 256 - (s.reg y).toNat) % 256) ∧
        (t.reg VF).toNat = (if (s.reg x).toNat ≥ (s.reg y).toNat then 1 else 0) ∧
        SameBut s t (regAndFlag x) noBytes []) ∧
      ∃ t, exec (.subn x y) s = .next t ∧
        (x ≠ VF → (t.reg x).toNat = ((s.reg y).toNat + 256 - (s.reg x).toNat) % 256) ∧
        (t.reg VF).toNat = (if (s.reg y).toNat ≥ (s.reg x).toNat then 1 else 0) ∧
        SameBut s t (regAndFlag x) noBytes []

/-- SHR and SHL (42_register_alu.md section 3): logical shifts of V[X] by one, whatever Y is; VF is the bit shifted out,
written last (90_conflicts.md C2, the spec's decision D10, log entry 10). -/
def Obligations.ShiftsSetShiftedOutBit : Prop :=
  (∀ x y : Reg, decodeWord (BitVec.ofNat 16 (0x8006 + x.val * 256 + y.val * 16)) = .ok (.shr x y) ∧
    decodeWord (BitVec.ofNat 16 (0x800E + x.val * 256 + y.val * 16)) = .ok (.shl x y)) ∧
    ∀ (x y : Reg) (s : State),
      (∃ t, exec (.shr x y) s = .next t ∧ (x ≠ VF → (t.reg x).toNat = (s.reg x).toNat / 2) ∧
        (t.reg VF).toNat = (s.reg x).toNat % 2 ∧ SameBut s t (regAndFlag x) noBytes []) ∧
      ∃ t, exec (.shl x y) s = .next t ∧ (x ≠ VF → (t.reg x).toNat = (s.reg x).toNat * 2 % 256) ∧
        (t.reg VF).toNat = (s.reg x).toNat / 128 ∧ SameBut s t (regAndFlag x) noBytes []

/-- RND (42_register_alu.md section 4): V[X] is the next random byte masked by NN, and one draw is used. The byte is a
FREE VALUE of the model and the draw counter is the model's own (log entry 3, the spec's decision D19): the statement
holds for every value of both. With NN = 0 the result is 0 whatever the byte is. -/
def Obligations.RandomByteIsMasked : Prop :=
  (∀ (x : Reg) (nn : Byte), decodeWord (BitVec.ofNat 16 (0xC000 + x.val * 256 + nn.toNat)) = .ok (.rnd x nn)) ∧
    ∀ (x : Reg) (nn : Byte) (s : State), ∃ t, exec (.rnd x nn) s = .next t ∧
      (∀ k, (t.reg x).getLsbD k = ((Config.randomByte s.draws).getLsbD k && nn.getLsbD k)) ∧
      t.draws = s.draws + 1 ∧ (nn = 0 → t.reg x = 0) ∧ SameBut s t (onlyReg x) noBytes [.draws]

/-! ### Index register and memory -/

/-- R104, R106: `I` is NNN, or the address of the glyph of the full register V[X], not masked to its low nibble. -/
def Obligations.IndexLoads : Prop :=
  (∀ nnn : Addr12, decodeWord (BitVec.ofNat 16 (0xA000 + nnn.toNat)) = .ok (.ldI nnn)) ∧
    (∀ x : Reg, decodeWord (BitVec.ofNat 16 (0xF029 + x.val * 256)) = .ok (.ldFVx x)) ∧
    ∀ (nnn : Addr12) (x : Reg) (s : State),
      (∃ t, exec (.ldI nnn) s = .next t ∧ t.I.toNat = nnn.toNat ∧ SameBut s t noRegs noBytes [.I]) ∧
      ∃ t, exec (.ldFVx x) s = .next t ∧ t.I.toNat = s.params.fontBase.val + (s.reg x).toNat * 5 ∧
        SameBut s t noRegs noBytes [.I]

/-- ADD I, Vx (43_index_memory.md): the sum mod 2^16, no range check and no flag (the spec's decisions D9 and D18). -/
def Obligations.AddToIndexWraps : Prop :=
  (∀ x : Reg, decodeWord (BitVec.ofNat 16 (0xF01E + x.val * 256)) = .ok (.addIVx x)) ∧
    ∀ (x : Reg) (s : State), ∃ t, exec (.addIVx x) s = .next t ∧
      t.I.toNat = (s.I.toNat + (s.reg x).toNat) % 65536 ∧ SameBut s t noRegs noBytes [.I]

/-- LD B, Vx (43_index_memory.md): the three decimal digits of V[X] at `I`, `I + 1` and `I + 2`, hundreds first, and no
other byte; or, out of range under Report, the condition at the least offset and no byte at all (the policy, the
untruncated addresses and the precise state are the spec's decisions D4, D9 and D7). -/
def Obligations.BcdStoresDigits : Prop :=
  (∀ x : Reg, decodeWord (BitVec.ofNat 16 (0xF033 + x.val * 256)) = .ok (.ldBVx x)) ∧
    ∀ (x : Reg) (s : State),
      (DataInRange s 3 → ∃ t, exec (.ldBVx x) s = .next t ∧
        s.dataAddrs 3 = .ok [s.I.toNat % 4096, (s.I.toNat + 1) % 4096, (s.I.toNat + 2) % 4096] ∧
        (t.readByte (s.I.toNat % 4096)).toNat = (s.reg x).toNat / 100 ∧
        (t.readByte ((s.I.toNat + 1) % 4096)).toNat = (s.reg x).toNat / 10 % 10 ∧
        (t.readByte ((s.I.toNat + 2) % 4096)).toNat = (s.reg x).toNat % 10 ∧
        ∀ as, s.dataAddrs 3 = .ok as → SameBut s t noRegs (· ∈ as) []) ∧
      (s.params.oorPolicy = .report → ∀ k, LeastOffset s.I.toNat 3 k →
        exec (.ldBVx x) s = .next (raised s (.outOfRangeAccess .data (s.I.toNat + k) (s.pc - 2))))

/-- LD [I], Vx (43_index_memory.md; that `I` is unchanged is the spec's decision D17): V0 to V[X] at `I` to `I + X`,
and no other byte; or, out of range under Report, the condition at the least offset and no byte at all. -/
def Obligations.BlockStoreWritesMemory : Prop :=
  (∀ x : Reg, decodeWord (BitVec.ofNat 16 (0xF055 + x.val * 256)) = .ok (.ldMemVx x)) ∧
    ∀ (x : Reg) (s : State),
      (DataInRange s (x.val + 1) → ∃ t, exec (.ldMemVx x) s = .next t ∧
        (∀ r : Reg, r ≤ x → t.readByte ((s.I.toNat + r.val) % 4096) = s.reg r) ∧
        ∀ as, s.dataAddrs (x.val + 1) = .ok as → SameBut s t noRegs (· ∈ as) []) ∧
      (s.params.oorPolicy = .report → ∀ k, LeastOffset s.I.toNat (x.val + 1) k →
        exec (.ldMemVx x) s = .next (raised s (.outOfRangeAccess .data (s.I.toNat + k) (s.pc - 2))))

/-- LD Vx, [I] (43_index_memory.md; that `I` is unchanged is the spec's decision D17): V0 to V[X] from `I` to `I + X`,
and no other register; or, out of range under Report, the condition at the least offset and no register at all. -/
def Obligations.BlockLoadReadsMemory : Prop :=
  (∀ x : Reg, decodeWord (BitVec.ofNat 16 (0xF065 + x.val * 256)) = .ok (.ldVxMem x)) ∧
    ∀ (x : Reg) (s : State),
      (DataInRange s (x.val + 1) → ∃ t, exec (.ldVxMem x) s = .next t ∧
        (∀ r : Reg, r ≤ x → t.reg r = s.readByte ((s.I.toNat + r.val) % 4096)) ∧
        SameBut s t (· ≤ x) noBytes []) ∧
      (s.params.oorPolicy = .report → ∀ k, LeastOffset s.I.toNat (x.val + 1) k →
        exec (.ldVxMem x) s = .next (raised s (.outOfRangeAccess .data (s.I.toNat + k) (s.pc - 2))))

/-! ### Display -/

/-- R110: every cell is off, so no sprite can collide on the cleared display, and nothing else changes, VF included. -/
def Obligations.ClearTurnsEveryCellOff : Prop :=
  decodeWord 0x00E0 = .ok .cls ∧ ∀ s : State, ∃ t, exec .cls s = .next t ∧
    (∀ x y, x < 64 → y < 32 → Display.cell t.fb x y = false) ∧
    (∀ x0 y0 bytes, ¬ Collides t.fb x0 y0 bytes) ∧ SameBut s t noRegs noBytes [.fb]

/-- DRW in closed form (44_display.md; which rows are read and checked is the spec's decision D16): from the start
column V[X] mod 64 and row V[Y] mod 32, `min(N, 32 - y0)` rows are XORed onto the display, clipped at the right and
bottom edges, and VF is 1 exactly if a sprite bit met a cell that was on; or, out of range under Report, the condition
at the least drawn row, with no cell and not VF written. -/
def Obligations.DrawXorsClippedSprite : Prop :=
  (∀ (x y : Reg) (n : Nibble),
    decodeWord (BitVec.ofNat 16 (0xD000 + x.val * 256 + y.val * 16 + n.toNat)) = .ok (.drw x y n)) ∧
    ∀ (x y : Reg) (n : Nibble) (s : State) (x0 y0 rows : Nat), x0 = (s.reg x).toNat % 64 →
      y0 = (s.reg y).toNat % 32 → rows = min n.toNat (32 - y0) →
      (DataInRange s rows → ∃ t, exec (.drw x y n) s = .next t ∧
        (∀ i j, i < 64 → j < 32 → Display.cell t.fb i j =
          (Display.cell s.fb i j != spriteBit x0 y0 (spriteBytes s rows) i j)) ∧
        (Collides s.fb x0 y0 (spriteBytes s rows) → t.reg VF = 1) ∧
        (¬ Collides s.fb x0 y0 (spriteBytes s rows) → t.reg VF = 0) ∧
        SameBut s t (onlyReg VF) noBytes [.fb]) ∧
      (s.params.oorPolicy = .report → ∀ k, LeastOffset s.I.toNat rows k →
        exec (.drw x y n) s = .next (raised s (.outOfRangeAccess .data (s.I.toNat + k) (s.pc - 2))))

/-- The four display properties that 44_display.md derives from CLS and DRW: only those two change `fb`; DRW changes
only cells of its window; a sprite with no 1 bit in its drawn window changes no cell and leaves VF = 0; and the first
draw after a CLS leaves VF = 0. -/
def Obligations.DisplayProperties : Prop :=
  (∀ (i : Instr) (s t : State), i ≠ .cls → (∀ x y n, i ≠ .drw x y n) → exec i s = .next t → t.fb = s.fb) ∧
    (∀ (x y : Reg) (n : Nibble) (s t : State) (i j : Nat), exec (.drw x y n) s = .next t →
      Display.cell t.fb i j ≠ Display.cell s.fb i j →
      (s.reg x).toNat % 64 ≤ i ∧ i < min ((s.reg x).toNat % 64 + 8) 64 ∧ (s.reg y).toNat % 32 ≤ j ∧
        j < (s.reg y).toNat % 32 + min n.toNat (32 - (s.reg y).toNat % 32)) ∧
    (∀ (x y : Reg) (n : Nibble) (s t : State) (rows : Nat),
      rows = min n.toNat (32 - (s.reg y).toNat % 32) → DataInRange s rows →
      (∀ i j, i < 64 → j < 32 →
        spriteBit ((s.reg x).toNat % 64) ((s.reg y).toNat % 32) (spriteBytes s rows) i j = false) →
      exec (.drw x y n) s = .next t → t.fb = s.fb ∧ t.reg VF = 0) ∧
    ∀ (x y : Reg) (n : Nibble) (s t u : State),
      DataInRange s (min n.toNat (32 - (s.reg y).toNat % 32)) → exec .cls s = .next t →
      exec (.drw x y n) t = .next u → u.reg VF = 0

/-- 95_test_vectors.md L1.3: with X and Y other than VF, the same draw twice restores every cell. The second VF is 1
exactly if a 1 bit of the sprite in the visible window lies on a cell that was off before the first draw; so, on a display
with no cell on, exactly if there is such a bit, which is what the corner case of 44_display.md says without that premise
(log entry 21). `u` is the state after the second draw, wherever the `pc` of the two is. -/
def Obligations.DrawTwiceRestores : Prop :=
  ∀ (x y : Reg) (n : Nibble) (s t u : State) (pc : Word) (rows : Nat), x ≠ VF → y ≠ VF →
    rows = min n.toNat (32 - (s.reg y).toNat % 32) → DataInRange s rows →
    exec (.drw x y n) s = .next t → exec (.drw x y n) (t.setPc pc) = .next u →
    u.fb = s.fb ∧
      (u.reg VF = 1 ↔ ∃ i j, i < 64 ∧ j < 32 ∧ Display.cell s.fb i j = false ∧
        spriteBit ((s.reg x).toNat % 64) ((s.reg y).toNat % 32) (spriteBytes s rows) i j = true) ∧
      ((∀ i j, Display.cell s.fb i j = false) →
        (u.reg VF = 1 ↔ ∃ i j, i < 64 ∧ j < 32 ∧
          spriteBit ((s.reg x).toNat % 64) ((s.reg y).toNat % 32) (spriteBytes s rows) i j = true))

/-! ### Input and timers -/

/-- SKP and SKNP (45_input_timer.md; an index at or above 16 is the spec's decision D12): a skip by the key that V[X]
names, V[X] mod 16 under Mask; or, at 16 or above under Report, the condition. -/
def Obligations.KeySkips : Prop :=
  (∀ x : Reg, decodeWord (BitVec.ofNat 16 (0xE09E + x.val * 256)) = .ok (.skp x) ∧
    decodeWord (BitVec.ofNat 16 (0xE0A1 + x.val * 256)) = .ok (.sknp x)) ∧
    ∀ (x : Reg) (s : State),
      (∀ k : Fin 16, k.val = (s.reg x).toNat % 16 → (s.params.oorPolicy = .mask ∨ (s.reg x).toNat < 16) →
        (∃ t, exec (.skp x) s = .next t ∧
          t.pc.toNat = (if s.key[k.val] = true then (s.pc.toNat + 2) % 65536 else s.pc.toNat) ∧
          SameBut s t noRegs noBytes [.pc]) ∧
        ∃ t, exec (.sknp x) s = .next t ∧
          t.pc.toNat = (if s.key[k.val] = true then s.pc.toNat else (s.pc.toNat + 2) % 65536) ∧
          SameBut s t noRegs noBytes [.pc]) ∧
      (s.params.oorPolicy = .report → 16 ≤ (s.reg x).toNat →
        exec (.skp x) s = .next (raised s (.outOfRangeAccess .keypad (s.reg x).toNat (s.pc - 2))) ∧
        exec (.sknp x) s = .next (raised s (.outOfRangeAccess .keypad (s.reg x).toNat (s.pc - 2))))

/-- LD Vx, K (45_input_timer.md): with a key pressed, V[X] is the lowest one and `pc` is past the FX0A; with none, `pc`
is back at the FX0A and nothing else changes, the status included (the spec's decision D27). -/
def Obligations.KeyWaitTakesLowestKey : Prop :=
  (∀ x : Reg, decodeWord (BitVec.ofNat 16 (0xF00A + x.val * 256)) = .ok (.ldVxK x)) ∧
    ∀ (x : Reg) (s : State),
      (∀ k : Fin 16, s.key[k.val] = true → (∀ j : Fin 16, j < k → s.key[j.val] = false) →
        ∃ t, exec (.ldVxK x) s = .next t ∧ (t.reg x).toNat = k.val ∧ SameBut s t (onlyReg x) noBytes []) ∧
      ((∀ k : Fin 16, s.key[k.val] = false) →
        ∃ t, exec (.ldVxK x) s = .next t ∧ t.pc = s.pc - 2 ∧ SameBut s t noRegs noBytes [.pc])

/-- FX07, and R117, R118: DT into V[X], and V[X] into DT and into ST. That no other instruction reads a timer, which R116
adds, is stated in `OnlyFX07ReadsATimer`. -/
def Obligations.TimerMoves : Prop :=
  (∀ x : Reg, decodeWord (BitVec.ofNat 16 (0xF007 + x.val * 256)) = .ok (.ldVxDt x) ∧
    decodeWord (BitVec.ofNat 16 (0xF015 + x.val * 256)) = .ok (.ldDtVx x) ∧
    decodeWord (BitVec.ofNat 16 (0xF018 + x.val * 256)) = .ok (.ldStVx x)) ∧
    ∀ (x : Reg) (s : State),
      (∃ t, exec (.ldVxDt x) s = .next t ∧ t.reg x = s.DT ∧ SameBut s t (onlyReg x) noBytes []) ∧
      (∃ t, exec (.ldDtVx x) s = .next t ∧ t.DT = s.reg x ∧ SameBut s t noRegs noBytes [.DT]) ∧
      ∃ t, exec (.ldStVx x) s = .next t ∧ t.ST = s.reg x ∧ t.soundTimerActive = decide (0 < (s.reg x).toNat) ∧
        SameBut s t noRegs noBytes [.ST]

/-- A state that waits in FX0A is left as it is by a step, status Ok apart: "idempotent under repeated invocation while
no key is pressed" (45_input_timer.md; the status is the spec's decision D27). -/
def Obligations.KeyWaitIsIdempotent : Prop :=
  ∀ s : State, WaitingForKey s → step s = .next { s with status := .ok }

/-! ### Rules about the whole machine -/

/-- Each instruction changes only what the write tables of 10_state.md name for it: general registers, bytes of memory
at the addresses its own check gives, and other parts of the state. No instruction changes the keypad or the
parameters. -/
def Obligations.InstructionsChangeOnlyTheirWriteSet : Prop :=
  ∀ (i : Instr) (s t : State), exec i s = .next t → SameBut s t (writesReg i) (storesAt s i) (writesParts i)

/-- "This is the only instruction that reads a timer. No instruction reads ST" (45_input_timer.md on FX07, 10_state.md
section 9): another timer value before an instruction gives that value after it and no other difference, save that FX07
reads DT, and that FX15 and FX18 forget the old DT and the old ST altogether. -/
def Obligations.OnlyFX07ReadsATimer : Prop :=
  (∀ (i : Instr) (s t : State) (b : Byte), (∀ x, i ≠ .ldStVx x) → exec i s = .next t →
    exec i (s.setST b) = .next (t.setST b)) ∧
    (∀ (i : Instr) (s t : State) (b : Byte), (∀ x, i ≠ .ldVxDt x) → (∀ x, i ≠ .ldDtVx x) → exec i s = .next t →
      exec i (s.setDT b) = .next (t.setDT b)) ∧
    ∀ (x : Reg) (s : State) (b : Byte), exec (.ldStVx x) (s.setST b) = exec (.ldStVx x) s ∧
      exec (.ldDtVx x) (s.setDT b) = exec (.ldDtVx x) s

/-- The call stack is invisible to every instruction but CALL and RET (10_state.md section 6): "No instruction reads
SP or any entry into a register". -/
def Obligations.OnlyCallAndRetSeeTheStack : Prop :=
  ∀ (i : Instr) (s t : State) (entries : Vector Word 64) (depth : Fin 65), i ≠ .ret →
    (∀ nnn, i ≠ .call nnn) → exec i s = .next t →
    exec i { s with stack := entries, SP := depth } = .next { t with stack := entries, SP := depth }

/-- "The contents of an entry at index SP or above are never read" (10_state.md section 6, derived there): two machines
that differ only in stale entries differ only in stale entries after any schedule. -/
def Obligations.StaleEntriesAreNeverRead : Prop :=
  ∀ (ts : List Transaction) (s t s' : State), StaleEq s t → runSchedule ts s = .next s' →
    ∃ t', runSchedule ts t = .next t' ∧ StaleEq s' t'

/-- A step keeps the invariant, from every state that meets it: memory stays canonical, and the latch stays empty or
on a condition that is fatal under the parameters. -/
def Obligations.StepKeepsInvariant : Prop :=
  ∀ s t : State, Inv s → step s = .next t → Inv t

/-- The reset state meets the invariant, under every choice of the parameters. -/
def Obligations.ResetMeetsInvariant : Prop :=
  ∀ p : Params, Inv (State.resetWith p)

/-- Every schedule of transactions completes and keeps the invariant and the parameters (60_exceptions.md section 7). -/
def Obligations.SchedulesKeepInvariant : Prop :=
  ∀ (ts : List Transaction) (s : State), Inv s → ∃ t, runSchedule ts s = .next t ∧ Inv t ∧ t.params = s.params

/-- A state at rest stays as it is under a step, status Ok apart (70_reset_and_hazards.md section 3; the definition of
rest is the spec's decision D29). -/
def Obligations.AtRestIsStable : Prop :=
  ∀ s : State, AtRest s → step s = .next { s with status := .ok } ∧ AtRest { s with status := .ok }

/-! ### Memory -/

/-- `Addr` and `KeyIndex` (00_scope.md section 4; the policy is the spec's decision D4, untruncated addresses D9 and key
indices D12). -/
def Obligations.OutOfRangePolicy : Prop :=
  (∀ (k : AccessKind) (pc0 : Word) (a : Nat),
    (∀ p, a < 4096 → addr p k pc0 a = .ok a) ∧ addr .mask k pc0 a = .ok (a % 4096) ∧
    (4096 ≤ a → addr .report k pc0 a = .error (.outOfRangeAccess k a pc0))) ∧
    ∀ (pc0 : Word) (v : Byte) (j : Fin 16), j.val = v.toNat % 16 →
      (∀ p, v.toNat < 16 → keyIndex p pc0 v = .ok j) ∧ keyIndex .mask pc0 v = .ok j ∧
      (16 ≤ v.toNat → keyIndex .report pc0 v = .error (.outOfRangeAccess .keypad v.toNat pc0))

/-- Two canonical memories that read the same at every address are the same data. -/
def Obligations.CanonicalMemoriesAreEqual : Prop :=
  ∀ (p : Params) (m n : Memory), Memory.wf p m → Memory.wf p n →
    (∀ a, Memory.read p m a = Memory.read p n a) → m = n

/-- Fetch is coherent with stores (20_memory.md section 6): a FX55 that stores at least two registers where the next
fetch reads makes the next step fetch the stored word, V0 in its high byte. -/
def Obligations.StoredWordIsFetchedNext : Prop :=
  ∀ (x : Reg) (s : State), 1 ≤ x.val → s.I = s.pc → DataInRange s (x.val + 1) →
    ∃ t, exec (.ldMemVx x) s = .next t ∧ t.fetch = .ok (wordOfBytes (s.reg 0) (s.reg 1))

/-! ### Reset and the host interface -/

/-- What a reset leaves, under every choice of the parameters (10_state.md section 14; the values of I, DT, ST, SP and
the stack entries are the spec's decision D13, and the latch is its decision D6). -/
def Obligations.ResetValues : Prop :=
  ∀ p : Params, ∀ s, s = State.resetWith p →
    (∀ g : Fin 80, s.readByte (p.fontBase.val + g.val) = p.fontData[g.val]) ∧
    (∀ a, a < p.fontBase.val ∨ p.fontBase.val + 80 ≤ a → s.readByte a = 0) ∧
    (∀ r, s.reg r = 0) ∧ s.pc = 0x200 ∧ s.I = 0 ∧ s.SP = 0 ∧ (∀ k : Fin 64, s.stack[k.val] = 0) ∧
    (∀ x y, Display.cell s.fb x y = false) ∧ (∀ k : Fin 16, s.key[k.val] = false) ∧ s.DT = 0 ∧ s.ST = 0 ∧
    s.halted = none ∧ s.params = p

/-- `initialize` (70_reset_and_hazards.md section 1; its values for I, DT, ST and the stack are the spec's decision D13):
every element of the architectural state at its reset value, whatever it was. The draw counter, which is the model's
own, stays (log entry 16). -/
def Obligations.InitializeForgetsTheState : Prop :=
  ∀ s : State, transact .init s =
    .next ({ State.resetWith s.params with draws := s.draws }, .nothing)

/-- `load` (70_reset_and_hazards.md section 1; the order of check and copy is the spec's decision D25): an image of at
most 3584 bytes is copied to 0x200 and nothing else changes; a longer one changes nothing and returns LoadError with
its length. -/
def Obligations.LoadCopiesImage : Prop :=
  ∀ (image : List Byte) (s : State),
    (image.length ≤ 3584 → ∃ t, transact (.load image) s = .next (t, .loaded .ok) ∧
      (∀ (k : Nat) (h : k < image.length), t.readByte (0x200 + k) = image[k]) ∧
      SameBut s t noRegs (fun a => 0x200 ≤ a ∧ a < 0x200 + image.length) []) ∧
    (3584 < image.length → transact (.load image) s = .next (s, .loaded (.loadError image.length)))

/-- Booting (70_reset_and_hazards.md section 2): after `initialize` and a `load` that fits, from any state, `pc` is
0x200, nothing is latched, and memory is the image over the reset contents; and if `load` is skipped, the first step
reports UnknownInstruction(0x0000, 0x200). -/
def Obligations.BootPlacesProgram : Prop :=
  (∀ (image : List Byte) (s : State), image.length ≤ 3584 → ∃ t, runSchedule (bootSchedule image) s = .next t ∧
    t.pc = 0x200 ∧ t.halted = none ∧ ∀ a, t.readByte a =
      if 0x200 ≤ a then (image[a - 0x200]?).getD 0 else resetByte s.params a) ∧
    ∀ s : State, ∃ t, step s.coreInit = .next t ∧ t.status = .unknownInstruction 0x0000 0x200 ∧ t.pc = 0x202 ∧
      t.halted = none

/-- `tick_timers` (60_exceptions.md section 5): each timer down by one, floored at zero, and nothing else; also while
halted (the spec's decision D6). -/
def Obligations.TickDecrementsTimers : Prop :=
  ∀ s : State, ∃ t, transact .tickTimers s = .next (t, .nothing) ∧ t.DT.toNat = s.DT.toNat - 1 ∧
    t.ST.toNat = s.ST.toNat - 1 ∧ SameBut s t noRegs noBytes [.DT, .ST]

/-- `set_input` (60_exceptions.md section 6; that bit i is key i is the spec's decision D24): every key is overwritten,
and nothing else changes. -/
def Obligations.SetInputOverwritesKeys : Prop :=
  ∀ (k : Word) (s : State), ∃ t, transact (.setInput k) s = .next (t, .nothing) ∧
    (∀ i : Fin 16, t.key[i.val] = k.getLsbD i.val) ∧ SameBut s t noRegs noBytes [.key]

/-- R129, R131: the snapshot is the 2048 cells in row-major order and the sound output is `ST > 0`; neither changes
any state. -/
def Obligations.ReadOutsChangeNothing : Prop :=
  ∀ s : State,
    (∃ c : List Bool, transact .displaySnapshot s = .next (s, .cells c) ∧ c.length = 2048 ∧
      ∀ x y, x < 64 → y < 32 → c.getD (y * 64 + x) false = Display.cell s.fb x y) ∧
    transact .soundTimerActive s = .next (s, .active (decide (s.ST.toNat > 0)))

/-- Whether the trace record is taken changes neither the state nor the status of a step (40_step.md section 6; that
there is a record and what it carries are the spec's decision D28). The record names `pc0`, the returned status, the
fetched word and its instruction, and exactly the general and special registers whose value changed, `halted` among
them. That the special registers are those of 10_state.md section 11, all seven, is the model's choice (log entry
20). -/
def Obligations.TraceIsOnlyAnOutput : Prop :=
  ∀ s : State, ∃ t r, transact (.step false) s = .next (t, .stepped t.status none) ∧
    transact (.step true) s = .next (t, .stepped t.status (some r)) ∧ step s = .next t ∧ r.pc0 = s.pc ∧
    r.status = t.status ∧ (∀ w, s.halted = none → s.fetch = .ok w → r.word = some w ∧
      ∀ i, decodeWord w = .ok i → r.instr = some i) ∧
    (∀ (x : Reg) (a b : Nat), ⟨x, a, b⟩ ∈ r.registers ↔ a = (s.reg x).toNat ∧ b = (t.reg x).toNat ∧ a ≠ b) ∧
    (∀ (q : SpecialReg) (a b : SpecialValue), ⟨q, a, b⟩ ∈ r.specials ↔ a = s.special q ∧ b = t.special q ∧ a ≠ b) ∧
    ∀ c, s.halted = none → t.halted = some c → ⟨.halted, .latch none, .latch (some c)⟩ ∈ r.specials
end

