-- ==== Sys2Proof/Laws/Decode.lean ====
section
/-! SUPPORT. The fields of an encoded word, and the two halves of the round trip in small pieces. -/

namespace Sys2Proof

/-! ### Words from bytes -/

theorem wordOfBytes_toNat (hi lo : Byte) : (wordOfBytes hi lo).toNat = hi.toNat * 256 + lo.toNat := by
  have h : lo.toNat < 2 ^ 8 := lo.isLt
  rw [wordOfBytes, BitVec.toNat_append, Nat.shiftLeft_eq, ← Nat.shiftLeft_eq, ← Nat.shiftLeft_add_eq_or_of_lt h,
    Nat.shiftLeft_eq]

theorem highByte_toNat (w : Word) : (highByte w).toNat = w.toNat / 256 := by
  have h : w.toNat < 65536 := w.isLt
  simp only [highByte, BitVec.extractLsb'_toNat, Nat.shiftRight_eq_div_pow]
  omega

theorem lowByte_toNat (w : Word) : (lowByte w).toNat = w.toNat % 256 := by
  simp [lowByte]

@[simp] theorem wordOfBytes_high_low (w : Word) : wordOfBytes (highByte w) (lowByte w) = w := by
  apply BitVec.eq_of_toNat_eq
  rw [wordOfBytes_toNat, highByte_toNat, lowByte_toNat]
  omega

@[simp] theorem highByte_wordOfBytes (hi lo : Byte) : highByte (wordOfBytes hi lo) = hi := by
  apply BitVec.eq_of_toNat_eq
  have h : lo.toNat < 256 := lo.isLt
  rw [highByte_toNat, wordOfBytes_toNat]
  omega

@[simp] theorem lowByte_wordOfBytes (hi lo : Byte) : lowByte (wordOfBytes hi lo) = lo := by
  apply BitVec.eq_of_toNat_eq
  have h : lo.toNat < 256 := lo.isLt
  rw [lowByte_toNat, wordOfBytes_toNat]
  omega

/-! ### Fields as numbers -/

theorem fieldC_toNat (w : Word) : (fieldC w).toNat = w.toNat / 4096 := by
  have h : w.toNat < 65536 := w.isLt
  simp only [fieldC, BitVec.extractLsb'_toNat, Nat.shiftRight_eq_div_pow]
  omega

theorem fieldX_val (w : Word) : (fieldX w).val = w.toNat / 256 % 16 := by
  simp [fieldX, Nat.shiftRight_eq_div_pow]

theorem fieldY_val (w : Word) : (fieldY w).val = w.toNat / 16 % 16 := by
  simp [fieldY, Nat.shiftRight_eq_div_pow]

theorem fieldN_toNat (w : Word) : (fieldN w).toNat = w.toNat % 16 := by simp [fieldN]

theorem fieldNN_toNat (w : Word) : (fieldNN w).toNat = w.toNat % 256 := by simp [fieldNN]

theorem fieldNNN_toNat (w : Word) : (fieldNNN w).toNat = w.toNat % 4096 := by simp [fieldNNN]

/-! ### Encoded words as numbers -/

theorem wordA_toNat (c : Nibble) (nnn : Addr12) : (wordA c nnn).toNat = c.toNat * 4096 + nnn.toNat := by
  have h : nnn.toNat < 2 ^ 12 := nnn.isLt
  rw [wordA, BitVec.toNat_append, ← Nat.shiftLeft_add_eq_or_of_lt h, Nat.shiftLeft_eq]

theorem wordXK_toNat (c : Nibble) (x : Reg) (nn : Byte) :
    (wordXK c x nn).toNat = c.toNat * 4096 + x.val * 256 + nn.toNat := by
  have h : nn.toNat < 2 ^ 8 := nn.isLt
  have hx : (regBits x).toNat < 2 ^ 4 := (regBits x).isLt
  have hr : (regBits x).toNat = x.val := rfl
  rw [wordXK, BitVec.toNat_append, ← Nat.shiftLeft_add_eq_or_of_lt h, Nat.shiftLeft_eq, BitVec.toNat_append,
    ← Nat.shiftLeft_add_eq_or_of_lt hx, Nat.shiftLeft_eq]
  omega

theorem wordXYN_toNat (c : Nibble) (x y : Reg) (n : Nibble) :
    (wordXYN c x y n).toNat = c.toNat * 4096 + x.val * 256 + y.val * 16 + n.toNat := by
  have h : n.toNat < 2 ^ 4 := n.isLt
  have hx : (regBits x).toNat < 2 ^ 4 := (regBits x).isLt
  have hy : (regBits y).toNat < 2 ^ 4 := (regBits y).isLt
  have hr : (regBits x).toNat = x.val := rfl
  have hq : (regBits y).toNat = y.val := rfl
  rw [wordXYN, BitVec.toNat_append, ← Nat.shiftLeft_add_eq_or_of_lt h, Nat.shiftLeft_eq, BitVec.toNat_append,
    ← Nat.shiftLeft_add_eq_or_of_lt hy, Nat.shiftLeft_eq, BitVec.toNat_append, ← Nat.shiftLeft_add_eq_or_of_lt hx,
    Nat.shiftLeft_eq]
  omega

/-! ### The fields of an encoded word -/

@[simp] theorem fieldC_wordA (c : Nibble) (nnn : Addr12) : fieldC (wordA c nnn) = c := by
  apply BitVec.eq_of_toNat_eq
  have h : nnn.toNat < 4096 := nnn.isLt
  rw [fieldC_toNat, wordA_toNat]; omega

@[simp] theorem fieldNNN_wordA (c : Nibble) (nnn : Addr12) : fieldNNN (wordA c nnn) = nnn := by
  apply BitVec.eq_of_toNat_eq
  have h : nnn.toNat < 4096 := nnn.isLt
  rw [fieldNNN_toNat, wordA_toNat]; omega

@[simp] theorem fieldC_wordXK (c : Nibble) (x : Reg) (nn : Byte) : fieldC (wordXK c x nn) = c := by
  apply BitVec.eq_of_toNat_eq
  have h : nn.toNat < 256 := nn.isLt
  have hx := x.isLt
  rw [fieldC_toNat, wordXK_toNat]; omega

@[simp] theorem fieldX_wordXK (c : Nibble) (x : Reg) (nn : Byte) : fieldX (wordXK c x nn) = x := by
  apply Fin.ext
  have h : nn.toNat < 256 := nn.isLt
  have hx := x.isLt
  rw [fieldX_val, wordXK_toNat]; omega

@[simp] theorem fieldNN_wordXK (c : Nibble) (x : Reg) (nn : Byte) : fieldNN (wordXK c x nn) = nn := by
  apply BitVec.eq_of_toNat_eq
  have h : nn.toNat < 256 := nn.isLt
  rw [fieldNN_toNat, wordXK_toNat]; omega

@[simp] theorem fieldC_wordXYN (c : Nibble) (x y : Reg) (n : Nibble) : fieldC (wordXYN c x y n) = c := by
  apply BitVec.eq_of_toNat_eq
  have h : n.toNat < 16 := n.isLt
  have hx := x.isLt
  have hy := y.isLt
  rw [fieldC_toNat, wordXYN_toNat]; omega

@[simp] theorem fieldX_wordXYN (c : Nibble) (x y : Reg) (n : Nibble) : fieldX (wordXYN c x y n) = x := by
  apply Fin.ext
  have h : n.toNat < 16 := n.isLt
  have hx := x.isLt
  have hy := y.isLt
  rw [fieldX_val, wordXYN_toNat]; omega

@[simp] theorem fieldY_wordXYN (c : Nibble) (x y : Reg) (n : Nibble) : fieldY (wordXYN c x y n) = y := by
  apply Fin.ext
  have h : n.toNat < 16 := n.isLt
  have hx := x.isLt
  have hy := y.isLt
  rw [fieldY_val, wordXYN_toNat]; omega

@[simp] theorem fieldN_wordXYN (c : Nibble) (x y : Reg) (n : Nibble) : fieldN (wordXYN c x y n) = n := by
  apply BitVec.eq_of_toNat_eq
  have h : n.toNat < 16 := n.isLt
  rw [fieldN_toNat, wordXYN_toNat]; omega

/-! ### A word is put together from its fields -/

theorem wordA_fields (w : Word) : wordA (fieldC w) (fieldNNN w) = w := by
  apply BitVec.eq_of_toNat_eq
  rw [wordA_toNat, fieldC_toNat, fieldNNN_toNat]; omega

theorem wordXK_fields (w : Word) : wordXK (fieldC w) (fieldX w) (fieldNN w) = w := by
  apply BitVec.eq_of_toNat_eq
  rw [wordXK_toNat, fieldC_toNat, fieldX_val, fieldNN_toNat]; omega

theorem wordXYN_fields (w : Word) : wordXYN (fieldC w) (fieldX w) (fieldY w) (fieldN w) = w := by
  apply BitVec.eq_of_toNat_eq
  rw [wordXYN_toNat, fieldC_toNat, fieldX_val, fieldY_val, fieldN_toNat]; omega

/-! ### The masks of the opcode map (R66) -/

theorem and_mask_F000 (w : Word) : w &&& 0xF000 = wordA (fieldC w) 0 := by
  apply BitVec.eq_of_getLsbD_eq
  intro i hi
  simp only [wordA, fieldC, BitVec.getLsbD_and, BitVec.getLsbD_append, BitVec.getLsbD_extractLsb']
  interval_cases i <;> simp

theorem and_mask_F00F (w : Word) : w &&& 0xF00F = wordXYN (fieldC w) 0 0 (fieldN w) := by
  apply BitVec.eq_of_getLsbD_eq
  intro i hi
  simp only [wordXYN, regBits, fieldC, fieldN, BitVec.getLsbD_and, BitVec.getLsbD_append, BitVec.getLsbD_extractLsb']
  interval_cases i <;> simp

theorem and_mask_F0FF (w : Word) : w &&& 0xF0FF = wordXK (fieldC w) 0 (fieldNN w) := by
  apply BitVec.eq_of_getLsbD_eq
  intro i hi
  simp only [wordXK, regBits, fieldC, fieldNN, BitVec.getLsbD_and, BitVec.getLsbD_append, BitVec.getLsbD_extractLsb']
  interval_cases i <;> simp

theorem and_mask_FFFF (w : Word) : w &&& 0xFFFF = w := BitVec.and_allOnes

/-! ### Words written as numbers -/

theorem ofNat_wordA (k : Nat) (c : Nibble) (nnn : Addr12) (h : k = c.toNat * 4096) :
    BitVec.ofNat 16 (k + nnn.toNat) = wordA c nnn := by
  apply BitVec.eq_of_toNat_eq
  have h1 := (wordA c nnn).isLt
  rw [wordA_toNat] at h1 ⊢
  rw [BitVec.toNat_ofNat, Nat.mod_eq_of_lt (by omega)]
  omega

theorem ofNat_wordXK (k : Nat) (c : Nibble) (x : Reg) (nn : Byte) (h : k = c.toNat * 4096) :
    BitVec.ofNat 16 (k + x.val * 256 + nn.toNat) = wordXK c x nn := by
  apply BitVec.eq_of_toNat_eq
  have h1 := (wordXK c x nn).isLt
  rw [wordXK_toNat] at h1 ⊢
  rw [BitVec.toNat_ofNat, Nat.mod_eq_of_lt (by omega)]
  omega

/-- Format `XS`: the sub-selector is part of the constant. -/
theorem ofNat_wordXS (k : Nat) (c : Nibble) (x : Reg) (sub : Byte) (h : k = c.toNat * 4096 + sub.toNat) :
    BitVec.ofNat 16 (k + x.val * 256) = wordXK c x sub := by
  rw [← ofNat_wordXK _ c x sub rfl]
  congr 1
  omega

theorem ofNat_wordXYN (k : Nat) (c : Nibble) (x y : Reg) (n : Nibble) (h : k = c.toNat * 4096) :
    BitVec.ofNat 16 (k + x.val * 256 + y.val * 16 + n.toNat) = wordXYN c x y n := by
  apply BitVec.eq_of_toNat_eq
  have h1 := (wordXYN c x y n).isLt
  rw [wordXYN_toNat] at h1 ⊢
  rw [BitVec.toNat_ofNat, Nat.mod_eq_of_lt (by omega)]
  omega

/-- Format `XYS`: the sub-selector is part of the constant. -/
theorem ofNat_wordXYS (k : Nat) (c : Nibble) (x y : Reg) (sub : Nibble) (h : k = c.toNat * 4096 + sub.toNat) :
    BitVec.ofNat 16 (k + x.val * 256 + y.val * 16) = wordXYN c x y sub := by
  rw [← ofNat_wordXYN _ c x y sub rfl]
  congr 1
  omega

end Sys2Proof
end

