-- ==== Sys2Proof/Laws/Memory.lean ====
section
/-! SUPPORT. The laws of memory: what a read gives after a write, that every operation keeps the canonical form, and
that canonical memories with the same contents are the same list. -/

namespace Sys2Proof.Machine

theorem Memory.entry_insert (m : Memory) (a i : Nat) (v : Byte) :
    Memory.entry (Memory.insert m a v) i = if a = i then some v else Memory.entry m i := by
  induction m with
  | nil => rfl
  | cons c m ih =>
    obtain ⟨b, u⟩ := c
    simp only [Memory.insert]
    split
    · rfl
    · split
      · next h => subst h; simp only [Memory.entry]; split <;> rfl
      · next h =>
        simp only [Memory.entry, ih]
        by_cases h1 : b = i
        · subst h1; simp [h]
        · simp [h1]

theorem Memory.entry_erase (m : Memory) (a i : Nat) :
    Memory.entry (Memory.erase m a) i = if a = i then none else Memory.entry m i := by
  induction m with
  | nil => simp [Memory.erase, Memory.entry]
  | cons c m ih =>
    obtain ⟨b, u⟩ := c
    simp only [Memory.erase]
    by_cases h : b = a
    · subst h
      rw [if_pos rfl, ih]
      by_cases h1 : b = i <;> simp [Memory.entry, h1]
    · rw [if_neg h]
      simp only [Memory.entry, ih]
      by_cases h1 : b = i
      · subst h1; simp [Ne.symm h]
      · simp [h1]

/-- A read after a write: the byte written at its address, and what was there before everywhere else. -/
theorem Memory.read_write (p : Params) (m : Memory) (a i : Nat) (v : Byte) :
    Memory.read p (Memory.write p m a v) i = if a = i then v else Memory.read p m i := by
  unfold Memory.read Memory.write
  split
  · next h =>
    rw [Memory.entry_erase]
    by_cases h1 : a = i
    · subst h1; simp [h]
    · simp [h1]
  · rw [Memory.entry_insert]
    by_cases h1 : a = i <;> simp [h1]

@[simp] theorem Memory.read_nil (p : Params) (i : Nat) : Memory.read p [] i = resetByte p i := rfl

theorem Memory.mem_insert {m : Memory} {a : Nat} {v : Byte} {c : Host.Cell}
    (h : c ∈ Memory.insert m a v) : c = (a, v) ∨ c ∈ m := by
  induction m with
  | nil => simpa [Memory.insert] using h
  | cons d m ih =>
    obtain ⟨b, u⟩ := d
    simp only [Memory.insert] at h
    split at h
    · simpa using h
    · split at h
      · rcases List.mem_cons.mp h with h | h
        · exact .inl h
        · exact .inr (List.mem_cons_of_mem _ h)
      · rcases List.mem_cons.mp h with h | h
        · exact .inr (h ▸ List.mem_cons_self)
        · exact (ih h).imp id (List.mem_cons_of_mem _)

theorem Memory.mem_erase {m : Memory} {a : Nat} {c : Host.Cell} (h : c ∈ Memory.erase m a) :
    c ∈ m ∧ c.1 ≠ a := by
  induction m with
  | nil => simp [Memory.erase] at h
  | cons d m ih =>
    obtain ⟨b, u⟩ := d
    simp only [Memory.erase] at h
    split at h
    · exact ⟨List.mem_cons_of_mem _ (ih h).1, (ih h).2⟩
    · rcases List.mem_cons.mp h with h | h
      · subst h; exact ⟨List.mem_cons_self, by assumption⟩
      · exact ⟨List.mem_cons_of_mem _ (ih h).1, (ih h).2⟩

theorem Memory.insert_rising {m : Memory} (a : Nat) (v : Byte)
    (h : m.Pairwise fun c d => c.1 < d.1) : (Memory.insert m a v).Pairwise fun c d => c.1 < d.1 := by
  induction m with
  | nil => simp [Memory.insert]
  | cons d m ih =>
    obtain ⟨b, u⟩ := d
    have hb := List.pairwise_cons.mp h
    simp only [Memory.insert]
    split
    · next hab =>
      refine List.pairwise_cons.mpr ⟨fun c hc => ?_, h⟩
      rcases List.mem_cons.mp hc with hc | hc
      · subst hc; exact hab
      · exact lt_trans hab (hb.1 c hc)
    · split
      · next hab => subst hab; exact List.pairwise_cons.mpr hb
      · next h1 h2 =>
        refine List.pairwise_cons.mpr ⟨fun c hc => ?_, ih hb.2⟩
        rcases Memory.mem_insert hc with hc | hc
        · subst hc; simp only; omega
        · exact hb.1 c hc

theorem Memory.erase_rising {m : Memory} (a : Nat)
    (h : m.Pairwise fun c d => c.1 < d.1) : (Memory.erase m a).Pairwise fun c d => c.1 < d.1 := by
  induction m with
  | nil => simp [Memory.erase]
  | cons d m ih =>
    obtain ⟨b, u⟩ := d
    have hb := List.pairwise_cons.mp h
    simp only [Memory.erase]
    split
    · exact ih hb.2
    · exact List.pairwise_cons.mpr ⟨fun c hc => hb.1 c (Memory.mem_erase hc).1, ih hb.2⟩

/-- A write to an address of the memory keeps the canonical form. -/
theorem Memory.wf_write {p : Params} {m : Memory} {a : Nat} {v : Byte}
    (h : Memory.wf p m) (ha : a < 4096) : Memory.wf p (Memory.write p m a v) := by
  unfold Memory.write
  split
  · exact ⟨Memory.erase_rising a h.1, fun c hc => h.2 c (Memory.mem_erase hc).1⟩
  · refine ⟨Memory.insert_rising a v h.1, fun c hc => ?_⟩
    rcases Memory.mem_insert hc with hc | hc
    · subst hc; exact ⟨ha, by assumption⟩
    · exact h.2 c hc

theorem Memory.wf_nil (p : Params) : Memory.wf p [] := by simp [Memory.wf]

theorem Memory.wf_writeFrom {p : Params} (bs : List Byte) {m : Memory} {a : Nat}
    (h : Memory.wf p m) (ha : a + bs.length ≤ 4096) : Memory.wf p (Memory.writeFrom p m a bs) := by
  induction bs generalizing m a with
  | nil => exact h
  | cons b bs ih =>
    simp only [List.length_cons] at ha
    exact ih (Memory.wf_write h (by omega)) (by omega)

/-- A read after the bytes `bs` were written from `a` upward. -/
theorem Memory.read_writeFrom (p : Params) (bs : List Byte) (m : Memory) (a i : Nat) :
    Memory.read p (Memory.writeFrom p m a bs) i =
      if a ≤ i then (bs[i - a]?).getD (Memory.read p m i) else Memory.read p m i := by
  induction bs generalizing m a with
  | nil => simp [Memory.writeFrom]
  | cons b bs ih =>
    rw [Memory.writeFrom, ih, Memory.read_write]
    rcases Nat.lt_trichotomy a i with h | h | h
    · have h1 : i - a = (i - (a + 1)) + 1 := by omega
      rw [if_pos (show a + 1 ≤ i by omega), if_neg (by omega), if_pos (by omega), h1]
      simp
    · subst h
      rw [if_neg (by omega), if_pos rfl, if_pos le_rfl]; simp
    · rw [if_neg (by omega), if_neg (by omega), if_neg (by omega)]

theorem Memory.entry_of_lt {m : Memory} {i : Nat} (h : ∀ c ∈ m, i < c.1) : Memory.entry m i = none := by
  induction m with
  | nil => rfl
  | cons d m ih =>
    obtain ⟨b, u⟩ := d
    have hb : i < b := h (b, u) List.mem_cons_self
    simp only [Memory.entry]
    rw [if_neg (by omega)]
    exact ih fun c hc => h c (List.mem_cons_of_mem _ hc)

end Sys2Proof.Machine
end

