-- ==== Sys2Proof/Laws/State.lean ====
section
/-! SUPPORT. One lemma per field and update of the state, true by rfl, so that no later proof unfolds a record update;
then the same for the reads `reg` and `readByte`. -/

namespace Sys2Proof.Machine

/-! ### `setReg` -/

@[simp] theorem State.V_setReg (s : State) (x : Reg) (b : Byte) : (s.setReg x b).V = s.V.set x.val b := rfl
@[simp] theorem State.pc_setReg (s : State) (x : Reg) (b : Byte) : (s.setReg x b).pc = s.pc := rfl
@[simp] theorem State.I_setReg (s : State) (x : Reg) (b : Byte) : (s.setReg x b).I = s.I := rfl
@[simp] theorem State.stack_setReg (s : State) (x : Reg) (b : Byte) : (s.setReg x b).stack = s.stack := rfl
@[simp] theorem State.SP_setReg (s : State) (x : Reg) (b : Byte) : (s.setReg x b).SP = s.SP := rfl
@[simp] theorem State.fb_setReg (s : State) (x : Reg) (b : Byte) : (s.setReg x b).fb = s.fb := rfl
@[simp] theorem State.key_setReg (s : State) (x : Reg) (b : Byte) : (s.setReg x b).key = s.key := rfl
@[simp] theorem State.DT_setReg (s : State) (x : Reg) (b : Byte) : (s.setReg x b).DT = s.DT := rfl
@[simp] theorem State.ST_setReg (s : State) (x : Reg) (b : Byte) : (s.setReg x b).ST = s.ST := rfl
@[simp] theorem State.mem_setReg (s : State) (x : Reg) (b : Byte) : (s.setReg x b).mem = s.mem := rfl
@[simp] theorem State.halted_setReg (s : State) (x : Reg) (b : Byte) : (s.setReg x b).halted = s.halted := rfl
@[simp] theorem State.status_setReg (s : State) (x : Reg) (b : Byte) : (s.setReg x b).status = s.status := rfl
@[simp] theorem State.draws_setReg (s : State) (x : Reg) (b : Byte) : (s.setReg x b).draws = s.draws := rfl
@[simp] theorem State.params_setReg (s : State) (x : Reg) (b : Byte) : (s.setReg x b).params = s.params := rfl
@[simp] theorem State.readByte_setReg (s : State) (x : Reg) (b : Byte) (i : Nat) : (s.setReg x b).readByte i = s.readByte i := rfl

/-! ### `setRegs` -/

@[simp] theorem State.V_setRegs (s : State) (bs : List Byte) : (s.setRegs bs).V = Vector.ofFn fun i => (bs[i.val]?).getD (s.reg i) := rfl
@[simp] theorem State.pc_setRegs (s : State) (bs : List Byte) : (s.setRegs bs).pc = s.pc := rfl
@[simp] theorem State.I_setRegs (s : State) (bs : List Byte) : (s.setRegs bs).I = s.I := rfl
@[simp] theorem State.stack_setRegs (s : State) (bs : List Byte) : (s.setRegs bs).stack = s.stack := rfl
@[simp] theorem State.SP_setRegs (s : State) (bs : List Byte) : (s.setRegs bs).SP = s.SP := rfl
@[simp] theorem State.fb_setRegs (s : State) (bs : List Byte) : (s.setRegs bs).fb = s.fb := rfl
@[simp] theorem State.key_setRegs (s : State) (bs : List Byte) : (s.setRegs bs).key = s.key := rfl
@[simp] theorem State.DT_setRegs (s : State) (bs : List Byte) : (s.setRegs bs).DT = s.DT := rfl
@[simp] theorem State.ST_setRegs (s : State) (bs : List Byte) : (s.setRegs bs).ST = s.ST := rfl
@[simp] theorem State.mem_setRegs (s : State) (bs : List Byte) : (s.setRegs bs).mem = s.mem := rfl
@[simp] theorem State.halted_setRegs (s : State) (bs : List Byte) : (s.setRegs bs).halted = s.halted := rfl
@[simp] theorem State.status_setRegs (s : State) (bs : List Byte) : (s.setRegs bs).status = s.status := rfl
@[simp] theorem State.draws_setRegs (s : State) (bs : List Byte) : (s.setRegs bs).draws = s.draws := rfl
@[simp] theorem State.params_setRegs (s : State) (bs : List Byte) : (s.setRegs bs).params = s.params := rfl
@[simp] theorem State.readByte_setRegs (s : State) (bs : List Byte) (i : Nat) : (s.setRegs bs).readByte i = s.readByte i := rfl

/-! ### `setPc` -/

@[simp] theorem State.V_setPc (s : State) (a : Word) : (s.setPc a).V = s.V := rfl
@[simp] theorem State.pc_setPc (s : State) (a : Word) : (s.setPc a).pc = a := rfl
@[simp] theorem State.I_setPc (s : State) (a : Word) : (s.setPc a).I = s.I := rfl
@[simp] theorem State.stack_setPc (s : State) (a : Word) : (s.setPc a).stack = s.stack := rfl
@[simp] theorem State.SP_setPc (s : State) (a : Word) : (s.setPc a).SP = s.SP := rfl
@[simp] theorem State.fb_setPc (s : State) (a : Word) : (s.setPc a).fb = s.fb := rfl
@[simp] theorem State.key_setPc (s : State) (a : Word) : (s.setPc a).key = s.key := rfl
@[simp] theorem State.DT_setPc (s : State) (a : Word) : (s.setPc a).DT = s.DT := rfl
@[simp] theorem State.ST_setPc (s : State) (a : Word) : (s.setPc a).ST = s.ST := rfl
@[simp] theorem State.mem_setPc (s : State) (a : Word) : (s.setPc a).mem = s.mem := rfl
@[simp] theorem State.halted_setPc (s : State) (a : Word) : (s.setPc a).halted = s.halted := rfl
@[simp] theorem State.status_setPc (s : State) (a : Word) : (s.setPc a).status = s.status := rfl
@[simp] theorem State.draws_setPc (s : State) (a : Word) : (s.setPc a).draws = s.draws := rfl
@[simp] theorem State.params_setPc (s : State) (a : Word) : (s.setPc a).params = s.params := rfl
@[simp] theorem State.reg_setPc (s : State) (a : Word) (r : Reg) : (s.setPc a).reg r = s.reg r := rfl
@[simp] theorem State.readByte_setPc (s : State) (a : Word) (i : Nat) : (s.setPc a).readByte i = s.readByte i := rfl

/-! ### `setI` -/

@[simp] theorem State.V_setI (s : State) (a : Word) : (s.setI a).V = s.V := rfl
@[simp] theorem State.pc_setI (s : State) (a : Word) : (s.setI a).pc = s.pc := rfl
@[simp] theorem State.I_setI (s : State) (a : Word) : (s.setI a).I = a := rfl
@[simp] theorem State.stack_setI (s : State) (a : Word) : (s.setI a).stack = s.stack := rfl
@[simp] theorem State.SP_setI (s : State) (a : Word) : (s.setI a).SP = s.SP := rfl
@[simp] theorem State.fb_setI (s : State) (a : Word) : (s.setI a).fb = s.fb := rfl
@[simp] theorem State.key_setI (s : State) (a : Word) : (s.setI a).key = s.key := rfl
@[simp] theorem State.DT_setI (s : State) (a : Word) : (s.setI a).DT = s.DT := rfl
@[simp] theorem State.ST_setI (s : State) (a : Word) : (s.setI a).ST = s.ST := rfl
@[simp] theorem State.mem_setI (s : State) (a : Word) : (s.setI a).mem = s.mem := rfl
@[simp] theorem State.halted_setI (s : State) (a : Word) : (s.setI a).halted = s.halted := rfl
@[simp] theorem State.status_setI (s : State) (a : Word) : (s.setI a).status = s.status := rfl
@[simp] theorem State.draws_setI (s : State) (a : Word) : (s.setI a).draws = s.draws := rfl
@[simp] theorem State.params_setI (s : State) (a : Word) : (s.setI a).params = s.params := rfl
@[simp] theorem State.reg_setI (s : State) (a : Word) (r : Reg) : (s.setI a).reg r = s.reg r := rfl
@[simp] theorem State.readByte_setI (s : State) (a : Word) (i : Nat) : (s.setI a).readByte i = s.readByte i := rfl

/-! ### `setDT` -/

@[simp] theorem State.V_setDT (s : State) (b : Byte) : (s.setDT b).V = s.V := rfl
@[simp] theorem State.pc_setDT (s : State) (b : Byte) : (s.setDT b).pc = s.pc := rfl
@[simp] theorem State.I_setDT (s : State) (b : Byte) : (s.setDT b).I = s.I := rfl
@[simp] theorem State.stack_setDT (s : State) (b : Byte) : (s.setDT b).stack = s.stack := rfl
@[simp] theorem State.SP_setDT (s : State) (b : Byte) : (s.setDT b).SP = s.SP := rfl
@[simp] theorem State.fb_setDT (s : State) (b : Byte) : (s.setDT b).fb = s.fb := rfl
@[simp] theorem State.key_setDT (s : State) (b : Byte) : (s.setDT b).key = s.key := rfl
@[simp] theorem State.DT_setDT (s : State) (b : Byte) : (s.setDT b).DT = b := rfl
@[simp] theorem State.ST_setDT (s : State) (b : Byte) : (s.setDT b).ST = s.ST := rfl
@[simp] theorem State.mem_setDT (s : State) (b : Byte) : (s.setDT b).mem = s.mem := rfl
@[simp] theorem State.halted_setDT (s : State) (b : Byte) : (s.setDT b).halted = s.halted := rfl
@[simp] theorem State.status_setDT (s : State) (b : Byte) : (s.setDT b).status = s.status := rfl
@[simp] theorem State.draws_setDT (s : State) (b : Byte) : (s.setDT b).draws = s.draws := rfl
@[simp] theorem State.params_setDT (s : State) (b : Byte) : (s.setDT b).params = s.params := rfl
@[simp] theorem State.reg_setDT (s : State) (b : Byte) (r : Reg) : (s.setDT b).reg r = s.reg r := rfl
@[simp] theorem State.readByte_setDT (s : State) (b : Byte) (i : Nat) : (s.setDT b).readByte i = s.readByte i := rfl

/-! ### `setST` -/

@[simp] theorem State.V_setST (s : State) (b : Byte) : (s.setST b).V = s.V := rfl
@[simp] theorem State.pc_setST (s : State) (b : Byte) : (s.setST b).pc = s.pc := rfl
@[simp] theorem State.I_setST (s : State) (b : Byte) : (s.setST b).I = s.I := rfl
@[simp] theorem State.stack_setST (s : State) (b : Byte) : (s.setST b).stack = s.stack := rfl
@[simp] theorem State.SP_setST (s : State) (b : Byte) : (s.setST b).SP = s.SP := rfl
@[simp] theorem State.fb_setST (s : State) (b : Byte) : (s.setST b).fb = s.fb := rfl
@[simp] theorem State.key_setST (s : State) (b : Byte) : (s.setST b).key = s.key := rfl
@[simp] theorem State.DT_setST (s : State) (b : Byte) : (s.setST b).DT = s.DT := rfl
@[simp] theorem State.ST_setST (s : State) (b : Byte) : (s.setST b).ST = b := rfl
@[simp] theorem State.mem_setST (s : State) (b : Byte) : (s.setST b).mem = s.mem := rfl
@[simp] theorem State.halted_setST (s : State) (b : Byte) : (s.setST b).halted = s.halted := rfl
@[simp] theorem State.status_setST (s : State) (b : Byte) : (s.setST b).status = s.status := rfl
@[simp] theorem State.draws_setST (s : State) (b : Byte) : (s.setST b).draws = s.draws := rfl
@[simp] theorem State.params_setST (s : State) (b : Byte) : (s.setST b).params = s.params := rfl
@[simp] theorem State.reg_setST (s : State) (b : Byte) (r : Reg) : (s.setST b).reg r = s.reg r := rfl
@[simp] theorem State.readByte_setST (s : State) (b : Byte) (i : Nat) : (s.setST b).readByte i = s.readByte i := rfl

/-! ### `setFb` -/

@[simp] theorem State.V_setFb (s : State) (d : Display) : (s.setFb d).V = s.V := rfl
@[simp] theorem State.pc_setFb (s : State) (d : Display) : (s.setFb d).pc = s.pc := rfl
@[simp] theorem State.I_setFb (s : State) (d : Display) : (s.setFb d).I = s.I := rfl
@[simp] theorem State.stack_setFb (s : State) (d : Display) : (s.setFb d).stack = s.stack := rfl
@[simp] theorem State.SP_setFb (s : State) (d : Display) : (s.setFb d).SP = s.SP := rfl
@[simp] theorem State.fb_setFb (s : State) (d : Display) : (s.setFb d).fb = d := rfl
@[simp] theorem State.key_setFb (s : State) (d : Display) : (s.setFb d).key = s.key := rfl
@[simp] theorem State.DT_setFb (s : State) (d : Display) : (s.setFb d).DT = s.DT := rfl
@[simp] theorem State.ST_setFb (s : State) (d : Display) : (s.setFb d).ST = s.ST := rfl
@[simp] theorem State.mem_setFb (s : State) (d : Display) : (s.setFb d).mem = s.mem := rfl
@[simp] theorem State.halted_setFb (s : State) (d : Display) : (s.setFb d).halted = s.halted := rfl
@[simp] theorem State.status_setFb (s : State) (d : Display) : (s.setFb d).status = s.status := rfl
@[simp] theorem State.draws_setFb (s : State) (d : Display) : (s.setFb d).draws = s.draws := rfl
@[simp] theorem State.params_setFb (s : State) (d : Display) : (s.setFb d).params = s.params := rfl
@[simp] theorem State.reg_setFb (s : State) (d : Display) (r : Reg) : (s.setFb d).reg r = s.reg r := rfl
@[simp] theorem State.readByte_setFb (s : State) (d : Display) (i : Nat) : (s.setFb d).readByte i = s.readByte i := rfl

/-! ### `setKey` -/

@[simp] theorem State.V_setKey (s : State) (k : Vector Bool 16) : (s.setKey k).V = s.V := rfl
@[simp] theorem State.pc_setKey (s : State) (k : Vector Bool 16) : (s.setKey k).pc = s.pc := rfl
@[simp] theorem State.I_setKey (s : State) (k : Vector Bool 16) : (s.setKey k).I = s.I := rfl
@[simp] theorem State.stack_setKey (s : State) (k : Vector Bool 16) : (s.setKey k).stack = s.stack := rfl
@[simp] theorem State.SP_setKey (s : State) (k : Vector Bool 16) : (s.setKey k).SP = s.SP := rfl
@[simp] theorem State.fb_setKey (s : State) (k : Vector Bool 16) : (s.setKey k).fb = s.fb := rfl
@[simp] theorem State.key_setKey (s : State) (k : Vector Bool 16) : (s.setKey k).key = k := rfl
@[simp] theorem State.DT_setKey (s : State) (k : Vector Bool 16) : (s.setKey k).DT = s.DT := rfl
@[simp] theorem State.ST_setKey (s : State) (k : Vector Bool 16) : (s.setKey k).ST = s.ST := rfl
@[simp] theorem State.mem_setKey (s : State) (k : Vector Bool 16) : (s.setKey k).mem = s.mem := rfl
@[simp] theorem State.halted_setKey (s : State) (k : Vector Bool 16) : (s.setKey k).halted = s.halted := rfl
@[simp] theorem State.status_setKey (s : State) (k : Vector Bool 16) : (s.setKey k).status = s.status := rfl
@[simp] theorem State.draws_setKey (s : State) (k : Vector Bool 16) : (s.setKey k).draws = s.draws := rfl
@[simp] theorem State.params_setKey (s : State) (k : Vector Bool 16) : (s.setKey k).params = s.params := rfl
@[simp] theorem State.reg_setKey (s : State) (k : Vector Bool 16) (r : Reg) : (s.setKey k).reg r = s.reg r := rfl
@[simp] theorem State.readByte_setKey (s : State) (k : Vector Bool 16) (i : Nat) : (s.setKey k).readByte i = s.readByte i := rfl

/-! ### `writeByte` -/

@[simp] theorem State.V_writeByte (s : State) (a : Nat) (b : Byte) : (s.writeByte a b).V = s.V := rfl
@[simp] theorem State.pc_writeByte (s : State) (a : Nat) (b : Byte) : (s.writeByte a b).pc = s.pc := rfl
@[simp] theorem State.I_writeByte (s : State) (a : Nat) (b : Byte) : (s.writeByte a b).I = s.I := rfl
@[simp] theorem State.stack_writeByte (s : State) (a : Nat) (b : Byte) : (s.writeByte a b).stack = s.stack := rfl
@[simp] theorem State.SP_writeByte (s : State) (a : Nat) (b : Byte) : (s.writeByte a b).SP = s.SP := rfl
@[simp] theorem State.fb_writeByte (s : State) (a : Nat) (b : Byte) : (s.writeByte a b).fb = s.fb := rfl
@[simp] theorem State.key_writeByte (s : State) (a : Nat) (b : Byte) : (s.writeByte a b).key = s.key := rfl
@[simp] theorem State.DT_writeByte (s : State) (a : Nat) (b : Byte) : (s.writeByte a b).DT = s.DT := rfl
@[simp] theorem State.ST_writeByte (s : State) (a : Nat) (b : Byte) : (s.writeByte a b).ST = s.ST := rfl
@[simp] theorem State.mem_writeByte (s : State) (a : Nat) (b : Byte) : (s.writeByte a b).mem = Memory.write s.params s.mem a b := rfl
@[simp] theorem State.halted_writeByte (s : State) (a : Nat) (b : Byte) : (s.writeByte a b).halted = s.halted := rfl
@[simp] theorem State.status_writeByte (s : State) (a : Nat) (b : Byte) : (s.writeByte a b).status = s.status := rfl
@[simp] theorem State.draws_writeByte (s : State) (a : Nat) (b : Byte) : (s.writeByte a b).draws = s.draws := rfl
@[simp] theorem State.params_writeByte (s : State) (a : Nat) (b : Byte) : (s.writeByte a b).params = s.params := rfl
@[simp] theorem State.reg_writeByte (s : State) (a : Nat) (b : Byte) (r : Reg) : (s.writeByte a b).reg r = s.reg r := rfl

/-! ### `raise` -/

@[simp] theorem State.V_raise (s : State) (c : Condition) : (s.raise c).V = s.V := rfl
@[simp] theorem State.pc_raise (s : State) (c : Condition) : (s.raise c).pc = s.pc := rfl
@[simp] theorem State.I_raise (s : State) (c : Condition) : (s.raise c).I = s.I := rfl
@[simp] theorem State.stack_raise (s : State) (c : Condition) : (s.raise c).stack = s.stack := rfl
@[simp] theorem State.SP_raise (s : State) (c : Condition) : (s.raise c).SP = s.SP := rfl
@[simp] theorem State.fb_raise (s : State) (c : Condition) : (s.raise c).fb = s.fb := rfl
@[simp] theorem State.key_raise (s : State) (c : Condition) : (s.raise c).key = s.key := rfl
@[simp] theorem State.DT_raise (s : State) (c : Condition) : (s.raise c).DT = s.DT := rfl
@[simp] theorem State.ST_raise (s : State) (c : Condition) : (s.raise c).ST = s.ST := rfl
@[simp] theorem State.mem_raise (s : State) (c : Condition) : (s.raise c).mem = s.mem := rfl
@[simp] theorem State.halted_raise (s : State) (c : Condition) : (s.raise c).halted = some c := rfl
@[simp] theorem State.status_raise (s : State) (c : Condition) : (s.raise c).status = .condition c := rfl
@[simp] theorem State.draws_raise (s : State) (c : Condition) : (s.raise c).draws = s.draws := rfl
@[simp] theorem State.params_raise (s : State) (c : Condition) : (s.raise c).params = s.params := rfl
@[simp] theorem State.reg_raise (s : State) (c : Condition) (r : Reg) : (s.raise c).reg r = s.reg r := rfl
@[simp] theorem State.readByte_raise (s : State) (c : Condition) (i : Nat) : (s.raise c).readByte i = s.readByte i := rfl

/-! ### `report` -/

@[simp] theorem State.V_report (s : State) (c : Condition) : (s.report c).V = s.V := rfl
@[simp] theorem State.pc_report (s : State) (c : Condition) : (s.report c).pc = s.pc := rfl
@[simp] theorem State.I_report (s : State) (c : Condition) : (s.report c).I = s.I := rfl
@[simp] theorem State.stack_report (s : State) (c : Condition) : (s.report c).stack = s.stack := rfl
@[simp] theorem State.SP_report (s : State) (c : Condition) : (s.report c).SP = s.SP := rfl
@[simp] theorem State.fb_report (s : State) (c : Condition) : (s.report c).fb = s.fb := rfl
@[simp] theorem State.key_report (s : State) (c : Condition) : (s.report c).key = s.key := rfl
@[simp] theorem State.DT_report (s : State) (c : Condition) : (s.report c).DT = s.DT := rfl
@[simp] theorem State.ST_report (s : State) (c : Condition) : (s.report c).ST = s.ST := rfl
@[simp] theorem State.mem_report (s : State) (c : Condition) : (s.report c).mem = s.mem := rfl
@[simp] theorem State.halted_report (s : State) (c : Condition) : (s.report c).halted = s.halted := rfl
@[simp] theorem State.status_report (s : State) (c : Condition) : (s.report c).status = .condition c := rfl
@[simp] theorem State.draws_report (s : State) (c : Condition) : (s.report c).draws = s.draws := rfl
@[simp] theorem State.params_report (s : State) (c : Condition) : (s.report c).params = s.params := rfl
@[simp] theorem State.reg_report (s : State) (c : Condition) (r : Reg) : (s.report c).reg r = s.reg r := rfl
@[simp] theorem State.readByte_report (s : State) (c : Condition) (i : Nat) : (s.report c).readByte i = s.readByte i := rfl

/-! ### `preAdvance` -/

@[simp] theorem State.V_preAdvance (s : State) : s.preAdvance.V = s.V := rfl
@[simp] theorem State.pc_preAdvance (s : State) : s.preAdvance.pc = s.pc + 2 := rfl
@[simp] theorem State.I_preAdvance (s : State) : s.preAdvance.I = s.I := rfl
@[simp] theorem State.stack_preAdvance (s : State) : s.preAdvance.stack = s.stack := rfl
@[simp] theorem State.SP_preAdvance (s : State) : s.preAdvance.SP = s.SP := rfl
@[simp] theorem State.fb_preAdvance (s : State) : s.preAdvance.fb = s.fb := rfl
@[simp] theorem State.key_preAdvance (s : State) : s.preAdvance.key = s.key := rfl
@[simp] theorem State.DT_preAdvance (s : State) : s.preAdvance.DT = s.DT := rfl
@[simp] theorem State.ST_preAdvance (s : State) : s.preAdvance.ST = s.ST := rfl
@[simp] theorem State.mem_preAdvance (s : State) : s.preAdvance.mem = s.mem := rfl
@[simp] theorem State.halted_preAdvance (s : State) : s.preAdvance.halted = s.halted := rfl
@[simp] theorem State.status_preAdvance (s : State) : s.preAdvance.status = .ok := rfl
@[simp] theorem State.draws_preAdvance (s : State) : s.preAdvance.draws = s.draws := rfl
@[simp] theorem State.params_preAdvance (s : State) : s.preAdvance.params = s.params := rfl
@[simp] theorem State.reg_preAdvance (s : State) (r : Reg) : s.preAdvance.reg r = s.reg r := rfl
@[simp] theorem State.readByte_preAdvance (s : State) (i : Nat) : s.preAdvance.readByte i = s.readByte i := rfl

/-! ### `haltedStep` -/

@[simp] theorem State.V_haltedStep (s : State) (c : Condition) : (s.haltedStep c).V = s.V := rfl
@[simp] theorem State.pc_haltedStep (s : State) (c : Condition) : (s.haltedStep c).pc = s.pc := rfl
@[simp] theorem State.I_haltedStep (s : State) (c : Condition) : (s.haltedStep c).I = s.I := rfl
@[simp] theorem State.stack_haltedStep (s : State) (c : Condition) : (s.haltedStep c).stack = s.stack := rfl
@[simp] theorem State.SP_haltedStep (s : State) (c : Condition) : (s.haltedStep c).SP = s.SP := rfl
@[simp] theorem State.fb_haltedStep (s : State) (c : Condition) : (s.haltedStep c).fb = s.fb := rfl
@[simp] theorem State.key_haltedStep (s : State) (c : Condition) : (s.haltedStep c).key = s.key := rfl
@[simp] theorem State.DT_haltedStep (s : State) (c : Condition) : (s.haltedStep c).DT = s.DT := rfl
@[simp] theorem State.ST_haltedStep (s : State) (c : Condition) : (s.haltedStep c).ST = s.ST := rfl
@[simp] theorem State.mem_haltedStep (s : State) (c : Condition) : (s.haltedStep c).mem = s.mem := rfl
@[simp] theorem State.halted_haltedStep (s : State) (c : Condition) : (s.haltedStep c).halted = s.halted := rfl
@[simp] theorem State.status_haltedStep (s : State) (c : Condition) : (s.haltedStep c).status = .halted c := rfl
@[simp] theorem State.draws_haltedStep (s : State) (c : Condition) : (s.haltedStep c).draws = s.draws := rfl
@[simp] theorem State.params_haltedStep (s : State) (c : Condition) : (s.haltedStep c).params = s.params := rfl
@[simp] theorem State.reg_haltedStep (s : State) (c : Condition) (r : Reg) : (s.haltedStep c).reg r = s.reg r := rfl
@[simp] theorem State.readByte_haltedStep (s : State) (c : Condition) (i : Nat) : (s.haltedStep c).readByte i = s.readByte i := rfl

/-! ### `fetchFaultStep` -/

@[simp] theorem State.V_fetchFaultStep (s : State) (c : Condition) : (s.fetchFaultStep c).V = s.V := rfl
@[simp] theorem State.pc_fetchFaultStep (s : State) (c : Condition) : (s.fetchFaultStep c).pc = s.pc := rfl
@[simp] theorem State.I_fetchFaultStep (s : State) (c : Condition) : (s.fetchFaultStep c).I = s.I := rfl
@[simp] theorem State.stack_fetchFaultStep (s : State) (c : Condition) : (s.fetchFaultStep c).stack = s.stack := rfl
@[simp] theorem State.SP_fetchFaultStep (s : State) (c : Condition) : (s.fetchFaultStep c).SP = s.SP := rfl
@[simp] theorem State.fb_fetchFaultStep (s : State) (c : Condition) : (s.fetchFaultStep c).fb = s.fb := rfl
@[simp] theorem State.key_fetchFaultStep (s : State) (c : Condition) : (s.fetchFaultStep c).key = s.key := rfl
@[simp] theorem State.DT_fetchFaultStep (s : State) (c : Condition) : (s.fetchFaultStep c).DT = s.DT := rfl
@[simp] theorem State.ST_fetchFaultStep (s : State) (c : Condition) : (s.fetchFaultStep c).ST = s.ST := rfl
@[simp] theorem State.mem_fetchFaultStep (s : State) (c : Condition) : (s.fetchFaultStep c).mem = s.mem := rfl
@[simp] theorem State.halted_fetchFaultStep (s : State) (c : Condition) : (s.fetchFaultStep c).halted = some c := rfl
@[simp] theorem State.status_fetchFaultStep (s : State) (c : Condition) : (s.fetchFaultStep c).status = .condition c := rfl
@[simp] theorem State.draws_fetchFaultStep (s : State) (c : Condition) : (s.fetchFaultStep c).draws = s.draws := rfl
@[simp] theorem State.params_fetchFaultStep (s : State) (c : Condition) : (s.fetchFaultStep c).params = s.params := rfl
@[simp] theorem State.reg_fetchFaultStep (s : State) (c : Condition) (r : Reg) : (s.fetchFaultStep c).reg r = s.reg r := rfl
@[simp] theorem State.readByte_fetchFaultStep (s : State) (c : Condition) (i : Nat) : (s.fetchFaultStep c).readByte i = s.readByte i := rfl

/-! ### `unknownStep` -/

@[simp] theorem State.V_unknownStep (s : State) (w : Word) : (s.unknownStep w).V = s.V := rfl
@[simp] theorem State.pc_unknownStep (s : State) (w : Word) : (s.unknownStep w).pc = s.pc + 2 := rfl
@[simp] theorem State.I_unknownStep (s : State) (w : Word) : (s.unknownStep w).I = s.I := rfl
@[simp] theorem State.stack_unknownStep (s : State) (w : Word) : (s.unknownStep w).stack = s.stack := rfl
@[simp] theorem State.SP_unknownStep (s : State) (w : Word) : (s.unknownStep w).SP = s.SP := rfl
@[simp] theorem State.fb_unknownStep (s : State) (w : Word) : (s.unknownStep w).fb = s.fb := rfl
@[simp] theorem State.key_unknownStep (s : State) (w : Word) : (s.unknownStep w).key = s.key := rfl
@[simp] theorem State.DT_unknownStep (s : State) (w : Word) : (s.unknownStep w).DT = s.DT := rfl
@[simp] theorem State.ST_unknownStep (s : State) (w : Word) : (s.unknownStep w).ST = s.ST := rfl
@[simp] theorem State.mem_unknownStep (s : State) (w : Word) : (s.unknownStep w).mem = s.mem := rfl
@[simp] theorem State.halted_unknownStep (s : State) (w : Word) : (s.unknownStep w).halted = s.halted := rfl
@[simp] theorem State.status_unknownStep (s : State) (w : Word) : (s.unknownStep w).status = .unknownInstruction w s.pc := rfl
@[simp] theorem State.draws_unknownStep (s : State) (w : Word) : (s.unknownStep w).draws = s.draws := rfl
@[simp] theorem State.params_unknownStep (s : State) (w : Word) : (s.unknownStep w).params = s.params := rfl
@[simp] theorem State.reg_unknownStep (s : State) (w : Word) (r : Reg) : (s.unknownStep w).reg r = s.reg r := rfl
@[simp] theorem State.readByte_unknownStep (s : State) (w : Word) (i : Nat) : (s.unknownStep w).readByte i = s.readByte i := rfl

/-! ### `nextDraw` -/

@[simp] theorem State.V_nextDraw (s : State) : s.nextDraw.V = s.V := rfl
@[simp] theorem State.pc_nextDraw (s : State) : s.nextDraw.pc = s.pc := rfl
@[simp] theorem State.I_nextDraw (s : State) : s.nextDraw.I = s.I := rfl
@[simp] theorem State.stack_nextDraw (s : State) : s.nextDraw.stack = s.stack := rfl
@[simp] theorem State.SP_nextDraw (s : State) : s.nextDraw.SP = s.SP := rfl
@[simp] theorem State.fb_nextDraw (s : State) : s.nextDraw.fb = s.fb := rfl
@[simp] theorem State.key_nextDraw (s : State) : s.nextDraw.key = s.key := rfl
@[simp] theorem State.DT_nextDraw (s : State) : s.nextDraw.DT = s.DT := rfl
@[simp] theorem State.ST_nextDraw (s : State) : s.nextDraw.ST = s.ST := rfl
@[simp] theorem State.mem_nextDraw (s : State) : s.nextDraw.mem = s.mem := rfl
@[simp] theorem State.halted_nextDraw (s : State) : s.nextDraw.halted = s.halted := rfl
@[simp] theorem State.status_nextDraw (s : State) : s.nextDraw.status = s.status := rfl
@[simp] theorem State.draws_nextDraw (s : State) : s.nextDraw.draws = s.draws + 1 := rfl
@[simp] theorem State.params_nextDraw (s : State) : s.nextDraw.params = s.params := rfl
@[simp] theorem State.reg_nextDraw (s : State) (r : Reg) : s.nextDraw.reg r = s.reg r := rfl
@[simp] theorem State.readByte_nextDraw (s : State) (i : Nat) : s.nextDraw.readByte i = s.readByte i := rfl

/-! ### `setFlag` -/

@[simp] theorem State.pc_setFlag (s : State) (f : Bool) : (s.setFlag f).pc = s.pc := rfl
@[simp] theorem State.I_setFlag (s : State) (f : Bool) : (s.setFlag f).I = s.I := rfl
@[simp] theorem State.stack_setFlag (s : State) (f : Bool) : (s.setFlag f).stack = s.stack := rfl
@[simp] theorem State.SP_setFlag (s : State) (f : Bool) : (s.setFlag f).SP = s.SP := rfl
@[simp] theorem State.fb_setFlag (s : State) (f : Bool) : (s.setFlag f).fb = s.fb := rfl
@[simp] theorem State.key_setFlag (s : State) (f : Bool) : (s.setFlag f).key = s.key := rfl
@[simp] theorem State.DT_setFlag (s : State) (f : Bool) : (s.setFlag f).DT = s.DT := rfl
@[simp] theorem State.ST_setFlag (s : State) (f : Bool) : (s.setFlag f).ST = s.ST := rfl
@[simp] theorem State.mem_setFlag (s : State) (f : Bool) : (s.setFlag f).mem = s.mem := rfl
@[simp] theorem State.halted_setFlag (s : State) (f : Bool) : (s.setFlag f).halted = s.halted := rfl
@[simp] theorem State.status_setFlag (s : State) (f : Bool) : (s.setFlag f).status = s.status := rfl
@[simp] theorem State.draws_setFlag (s : State) (f : Bool) : (s.setFlag f).draws = s.draws := rfl
@[simp] theorem State.params_setFlag (s : State) (f : Bool) : (s.setFlag f).params = s.params := rfl
@[simp] theorem State.readByte_setFlag (s : State) (f : Bool) (i : Nat) : (s.setFlag f).readByte i = s.readByte i := rfl

/-! ### `setResultFlag` -/

@[simp] theorem State.pc_setResultFlag (s : State) (x : Reg) (r : Byte) (f : Bool) : (s.setResultFlag x r f).pc = s.pc := rfl
@[simp] theorem State.I_setResultFlag (s : State) (x : Reg) (r : Byte) (f : Bool) : (s.setResultFlag x r f).I = s.I := rfl
@[simp] theorem State.stack_setResultFlag (s : State) (x : Reg) (r : Byte) (f : Bool) : (s.setResultFlag x r f).stack = s.stack := rfl
@[simp] theorem State.SP_setResultFlag (s : State) (x : Reg) (r : Byte) (f : Bool) : (s.setResultFlag x r f).SP = s.SP := rfl
@[simp] theorem State.fb_setResultFlag (s : State) (x : Reg) (r : Byte) (f : Bool) : (s.setResultFlag x r f).fb = s.fb := rfl
@[simp] theorem State.key_setResultFlag (s : State) (x : Reg) (r : Byte) (f : Bool) : (s.setResultFlag x r f).key = s.key := rfl
@[simp] theorem State.DT_setResultFlag (s : State) (x : Reg) (r : Byte) (f : Bool) : (s.setResultFlag x r f).DT = s.DT := rfl
@[simp] theorem State.ST_setResultFlag (s : State) (x : Reg) (r : Byte) (f : Bool) : (s.setResultFlag x r f).ST = s.ST := rfl
@[simp] theorem State.mem_setResultFlag (s : State) (x : Reg) (r : Byte) (f : Bool) : (s.setResultFlag x r f).mem = s.mem := rfl
@[simp] theorem State.halted_setResultFlag (s : State) (x : Reg) (r : Byte) (f : Bool) : (s.setResultFlag x r f).halted = s.halted := rfl
@[simp] theorem State.status_setResultFlag (s : State) (x : Reg) (r : Byte) (f : Bool) : (s.setResultFlag x r f).status = s.status := rfl
@[simp] theorem State.draws_setResultFlag (s : State) (x : Reg) (r : Byte) (f : Bool) : (s.setResultFlag x r f).draws = s.draws := rfl
@[simp] theorem State.params_setResultFlag (s : State) (x : Reg) (r : Byte) (f : Bool) : (s.setResultFlag x r f).params = s.params := rfl
@[simp] theorem State.readByte_setResultFlag (s : State) (x : Reg) (r : Byte) (f : Bool) (i : Nat) : (s.setResultFlag x r f).readByte i = s.readByte i := rfl

/-! ### `setCanvas` -/

@[simp] theorem State.pc_setCanvas (s : State) (c : Canvas) : (s.setCanvas c).pc = s.pc := rfl
@[simp] theorem State.I_setCanvas (s : State) (c : Canvas) : (s.setCanvas c).I = s.I := rfl
@[simp] theorem State.stack_setCanvas (s : State) (c : Canvas) : (s.setCanvas c).stack = s.stack := rfl
@[simp] theorem State.SP_setCanvas (s : State) (c : Canvas) : (s.setCanvas c).SP = s.SP := rfl
@[simp] theorem State.fb_setCanvas (s : State) (c : Canvas) : (s.setCanvas c).fb = c.1 := rfl
@[simp] theorem State.key_setCanvas (s : State) (c : Canvas) : (s.setCanvas c).key = s.key := rfl
@[simp] theorem State.DT_setCanvas (s : State) (c : Canvas) : (s.setCanvas c).DT = s.DT := rfl
@[simp] theorem State.ST_setCanvas (s : State) (c : Canvas) : (s.setCanvas c).ST = s.ST := rfl
@[simp] theorem State.mem_setCanvas (s : State) (c : Canvas) : (s.setCanvas c).mem = s.mem := rfl
@[simp] theorem State.halted_setCanvas (s : State) (c : Canvas) : (s.setCanvas c).halted = s.halted := rfl
@[simp] theorem State.status_setCanvas (s : State) (c : Canvas) : (s.setCanvas c).status = s.status := rfl
@[simp] theorem State.draws_setCanvas (s : State) (c : Canvas) : (s.setCanvas c).draws = s.draws := rfl
@[simp] theorem State.params_setCanvas (s : State) (c : Canvas) : (s.setCanvas c).params = s.params := rfl
@[simp] theorem State.readByte_setCanvas (s : State) (c : Canvas) (i : Nat) : (s.setCanvas c).readByte i = s.readByte i := rfl

/-! ### `rndWith` -/

@[simp] theorem State.pc_rndWith (s : State) (rnd : Byte) (x : Reg) (nn : Byte) : (s.rndWith rnd x nn).pc = s.pc := rfl
@[simp] theorem State.I_rndWith (s : State) (rnd : Byte) (x : Reg) (nn : Byte) : (s.rndWith rnd x nn).I = s.I := rfl
@[simp] theorem State.stack_rndWith (s : State) (rnd : Byte) (x : Reg) (nn : Byte) : (s.rndWith rnd x nn).stack = s.stack := rfl
@[simp] theorem State.SP_rndWith (s : State) (rnd : Byte) (x : Reg) (nn : Byte) : (s.rndWith rnd x nn).SP = s.SP := rfl
@[simp] theorem State.fb_rndWith (s : State) (rnd : Byte) (x : Reg) (nn : Byte) : (s.rndWith rnd x nn).fb = s.fb := rfl
@[simp] theorem State.key_rndWith (s : State) (rnd : Byte) (x : Reg) (nn : Byte) : (s.rndWith rnd x nn).key = s.key := rfl
@[simp] theorem State.DT_rndWith (s : State) (rnd : Byte) (x : Reg) (nn : Byte) : (s.rndWith rnd x nn).DT = s.DT := rfl
@[simp] theorem State.ST_rndWith (s : State) (rnd : Byte) (x : Reg) (nn : Byte) : (s.rndWith rnd x nn).ST = s.ST := rfl
@[simp] theorem State.mem_rndWith (s : State) (rnd : Byte) (x : Reg) (nn : Byte) : (s.rndWith rnd x nn).mem = s.mem := rfl
@[simp] theorem State.halted_rndWith (s : State) (rnd : Byte) (x : Reg) (nn : Byte) : (s.rndWith rnd x nn).halted = s.halted := rfl
@[simp] theorem State.status_rndWith (s : State) (rnd : Byte) (x : Reg) (nn : Byte) : (s.rndWith rnd x nn).status = s.status := rfl
@[simp] theorem State.draws_rndWith (s : State) (rnd : Byte) (x : Reg) (nn : Byte) : (s.rndWith rnd x nn).draws = s.draws := rfl
@[simp] theorem State.params_rndWith (s : State) (rnd : Byte) (x : Reg) (nn : Byte) : (s.rndWith rnd x nn).params = s.params := rfl
@[simp] theorem State.readByte_rndWith (s : State) (rnd : Byte) (x : Reg) (nn : Byte) (i : Nat) : (s.rndWith rnd x nn).readByte i = s.readByte i := rfl

/-! ### `tickTimers` -/

@[simp] theorem State.V_tickTimers (s : State) : s.tickTimers.V = s.V := rfl
@[simp] theorem State.pc_tickTimers (s : State) : s.tickTimers.pc = s.pc := rfl
@[simp] theorem State.I_tickTimers (s : State) : s.tickTimers.I = s.I := rfl
@[simp] theorem State.stack_tickTimers (s : State) : s.tickTimers.stack = s.stack := rfl
@[simp] theorem State.SP_tickTimers (s : State) : s.tickTimers.SP = s.SP := rfl
@[simp] theorem State.fb_tickTimers (s : State) : s.tickTimers.fb = s.fb := rfl
@[simp] theorem State.key_tickTimers (s : State) : s.tickTimers.key = s.key := rfl
@[simp] theorem State.DT_tickTimers (s : State) : s.tickTimers.DT = tickDown s.DT := rfl
@[simp] theorem State.ST_tickTimers (s : State) : s.tickTimers.ST = tickDown s.ST := rfl
@[simp] theorem State.mem_tickTimers (s : State) : s.tickTimers.mem = s.mem := rfl
@[simp] theorem State.halted_tickTimers (s : State) : s.tickTimers.halted = s.halted := rfl
@[simp] theorem State.status_tickTimers (s : State) : s.tickTimers.status = s.status := rfl
@[simp] theorem State.draws_tickTimers (s : State) : s.tickTimers.draws = s.draws := rfl
@[simp] theorem State.params_tickTimers (s : State) : s.tickTimers.params = s.params := rfl
@[simp] theorem State.reg_tickTimers (s : State) (r : Reg) : s.tickTimers.reg r = s.reg r := rfl
@[simp] theorem State.readByte_tickTimers (s : State) (i : Nat) : s.tickTimers.readByte i = s.readByte i := rfl

/-! ### `setInput` -/

@[simp] theorem State.V_setInput (s : State) (k : Word) : (s.setInput k).V = s.V := rfl
@[simp] theorem State.pc_setInput (s : State) (k : Word) : (s.setInput k).pc = s.pc := rfl
@[simp] theorem State.I_setInput (s : State) (k : Word) : (s.setInput k).I = s.I := rfl
@[simp] theorem State.stack_setInput (s : State) (k : Word) : (s.setInput k).stack = s.stack := rfl
@[simp] theorem State.SP_setInput (s : State) (k : Word) : (s.setInput k).SP = s.SP := rfl
@[simp] theorem State.fb_setInput (s : State) (k : Word) : (s.setInput k).fb = s.fb := rfl
@[simp] theorem State.DT_setInput (s : State) (k : Word) : (s.setInput k).DT = s.DT := rfl
@[simp] theorem State.ST_setInput (s : State) (k : Word) : (s.setInput k).ST = s.ST := rfl
@[simp] theorem State.mem_setInput (s : State) (k : Word) : (s.setInput k).mem = s.mem := rfl
@[simp] theorem State.halted_setInput (s : State) (k : Word) : (s.setInput k).halted = s.halted := rfl
@[simp] theorem State.status_setInput (s : State) (k : Word) : (s.setInput k).status = s.status := rfl
@[simp] theorem State.draws_setInput (s : State) (k : Word) : (s.setInput k).draws = s.draws := rfl
@[simp] theorem State.params_setInput (s : State) (k : Word) : (s.setInput k).params = s.params := rfl
@[simp] theorem State.reg_setInput (s : State) (k : Word) (r : Reg) : (s.setInput k).reg r = s.reg r := rfl
@[simp] theorem State.readByte_setInput (s : State) (k : Word) (i : Nat) : (s.setInput k).readByte i = s.readByte i := rfl

/-! ### `skipIf` changes `pc` only -/

theorem State.skipIf_eq (s : State) (c : Bool) : s.skipIf c = s.setPc (if c then s.pc + 2 else s.pc) := by
  cases c <;> rfl

end Sys2Proof.Machine
end

