-- ==== Sys2Proof/Laws/Ops.lean ====
section
/-! SUPPORT. One spec lemma for each shared operation of Machine/Ops.lean, Operands.lean and Flags.lean: everything
the operation can do. -/

namespace Sys2Proof.Machine

/-! ### Registers -/

theorem State.reg_setReg (s : State) (x r : Reg) (b : Byte) :
    (s.setReg x b).reg r = if x = r then b else s.reg r := by
  simp only [State.reg, State.setReg, Vector.getElem_set, Fin.ext_iff]

@[simp] theorem State.reg_setReg_same (s : State) (x : Reg) (b : Byte) : (s.setReg x b).reg x = b := by
  simp [State.reg_setReg]

theorem State.reg_setReg_other (s : State) {x r : Reg} (b : Byte) (h : r ≠ x) :
    (s.setReg x b).reg r = s.reg r := by
  simp [State.reg_setReg, Ne.symm h]

@[simp] theorem State.reg_setRegs (s : State) (bs : List Byte) (r : Reg) :
    (s.setRegs bs).reg r = (bs[r.val]?).getD (s.reg r) := by
  simp [State.reg, State.setRegs]

theorem State.reg_setFlag (s : State) (f : Bool) (r : Reg) :
    (s.setFlag f).reg r = if VF = r then flagByte f else s.reg r := State.reg_setReg s VF r _

/-- The flag is written last, so it wins when `x` is VF (R90). -/
theorem State.reg_setResultFlag (s : State) (x r : Reg) (v : Byte) (f : Bool) :
    (s.setResultFlag x v f).reg r = if VF = r then flagByte f else if x = r then v else s.reg r := by
  simp only [State.setResultFlag, State.reg_setFlag, State.reg_setReg]

theorem State.reg_setCanvas (s : State) (c : Canvas) (r : Reg) :
    (s.setCanvas c).reg r = if VF = r then flagByte c.2 else s.reg r := by
  simp [State.setCanvas, State.reg_setFlag]

theorem State.reg_rndWith (s : State) (rnd : Byte) (x r : Reg) (nn : Byte) :
    (s.rndWith rnd x nn).reg r = if x = r then rnd &&& nn else s.reg r := State.reg_setReg s x r _

theorem State.length_regsUpTo (s : State) (x : Reg) : (s.regsUpTo x).length = x.val + 1 := by
  simp [State.regsUpTo]

theorem State.getElem?_regsUpTo (s : State) (x : Reg) (i : Nat) (h : i ≤ x.val) :
    (s.regsUpTo x)[i]? = some (s.reg ⟨i, by omega⟩) := by
  simp [State.regsUpTo, State.reg, Nat.lt_succ_of_le h]

/-! ### Flags and results -/

theorem flagByte_toNat (b : Bool) : (flagByte b).toNat = if b then 1 else 0 := by cases b <;> rfl

theorem addResult_toNat (a b : Byte) : (addResult a b).toNat = (a.toNat + b.toNat) % 256 := by
  simp [addResult]

theorem subResult_toNat (a b : Byte) : (subResult a b).toNat = (a.toNat + 256 - b.toNat) % 256 := by
  simp [subResult]

theorem shrResult_toNat (a : Byte) : (shrResult a).toNat = a.toNat / 2 := by
  simp [shrResult, Nat.shiftRight_eq_div_pow]

theorem shlResult_toNat (a : Byte) : (shlResult a).toNat = a.toNat * 2 % 256 := by
  simp [shlResult, Nat.shiftLeft_eq]

theorem shrFlag_eq (a : Byte) : shrFlag a = decide (a.toNat % 2 = 1) := by
  simp [shrFlag, BitVec.getLsbD, Nat.testBit_zero]

theorem shlFlag_eq (a : Byte) : shlFlag a = decide (128 ≤ a.toNat) := by
  have h : a.toNat < 256 := a.isLt
  simp only [shlFlag, BitVec.getLsbD, Nat.testBit_eq_decide_div_mod_eq]
  congr 1
  apply propext
  omega

/-! ### Memory -/

theorem State.readByte_writeByte (s : State) (a i : Nat) (b : Byte) :
    (s.writeByte a b).readByte i = if a = i then b else s.readByte i :=
  Memory.read_write s.params s.mem a i b

/-- Writing several bytes changes memory only; each other part is as it was. -/
theorem State.writeBytes_eq (s : State) (as : List Nat) (bs : List Byte) :
    s.writeBytes as bs = { s with mem := (s.writeBytes as bs).mem } := by
  induction as generalizing s bs with
  | nil => cases bs <;> rfl
  | cons a as ih =>
    cases bs with
    | nil => rfl
    | cons b bs => simp only [State.writeBytes]; rw [ih]; rfl

@[simp] theorem State.params_writeBytes (s : State) (as : List Nat) (bs : List Byte) :
    (s.writeBytes as bs).params = s.params := by rw [State.writeBytes_eq]

@[simp] theorem State.reg_writeBytes (s : State) (as : List Nat) (bs : List Byte) (r : Reg) :
    (s.writeBytes as bs).reg r = s.reg r := by rw [State.writeBytes_eq]; rfl

/-- An address that is not among those written reads as before. -/
theorem State.readByte_writeBytes_other (s : State) (as : List Nat) (bs : List Byte) (i : Nat) (h : i ∉ as) :
    (s.writeBytes as bs).readByte i = s.readByte i := by
  induction as generalizing s bs with
  | nil => cases bs <;> rfl
  | cons a as ih =>
    cases bs with
    | nil => rfl
    | cons b bs =>
      simp only [List.mem_cons, not_or] at h
      rw [State.writeBytes, ih _ _ h.2, State.readByte_writeByte, if_neg (Ne.symm h.1)]

/-- With distinct addresses, the k-th address reads the k-th byte. -/
theorem State.readByte_writeBytes (s : State) (as : List Nat) (bs : List Byte) (k : Nat) (hd : as.Nodup)
    (ha : k < as.length) (hb : k < bs.length) : (s.writeBytes as bs).readByte as[k] = bs[k] := by
  induction as generalizing s bs k with
  | nil => simp at ha
  | cons a as ih =>
    cases bs with
    | nil => simp at hb
    | cons b bs =>
      have hn := List.nodup_cons.mp hd
      cases k with
      | zero =>
        simp only [State.writeBytes, List.getElem_cons_zero]
        rw [State.readByte_writeBytes_other _ _ _ _ hn.1, State.readByte_writeByte, if_pos rfl]
      | succ k =>
        simp only [State.writeBytes, List.getElem_cons_succ]
        exact ih _ _ _ hn.2 (by simpa using ha) (by simpa using hb)

theorem State.wf_writeBytes {s : State} (as : List Nat) (bs : List Byte) (h : Memory.wf s.params s.mem)
    (ha : ∀ a ∈ as, a < 4096) : Memory.wf s.params (s.writeBytes as bs).mem := by
  induction as generalizing s bs with
  | nil => cases bs <;> exact h
  | cons a as ih =>
    cases bs with
    | nil => exact h
    | cons b bs =>
      exact ih (s := s.writeByte a b) bs (Memory.wf_write h (ha a List.mem_cons_self))
        fun c hc => ha c (List.mem_cons_of_mem _ hc)

/-! ### The call stack -/

theorem State.push_eq_none {s : State} {a : Word} : s.push a = none ↔ s.SP.val = 64 := by
  unfold State.push
  have := s.SP.isLt
  split
  · simp only [reduceCtorEq, false_iff]; omega
  · simp only [true_iff]; omega

/-- What a push does: the entry at the old depth, and the depth one more. -/
theorem State.push_cases {s t : State} {a : Word} (h : s.push a = some t) :
    ∃ hs : s.SP.val < 64, t = { s with stack := s.stack.set s.SP.val a, SP := ⟨s.SP.val + 1, by omega⟩ } := by
  unfold State.push at h
  split at h
  · exact ⟨by assumption, (Option.some.inj h).symm⟩
  · cases h

theorem State.pop_eq_none {s : State} : s.pop = none ↔ s.SP.val = 0 := by
  unfold State.pop
  split
  · simp only [reduceCtorEq, false_iff]; omega
  · simp only [true_iff]; omega

/-- What a pop does: the top entry, and the depth one less. -/
theorem State.pop_cases {s t : State} {a : Word} (h : s.pop = some (a, t)) :
    ∃ hs : 0 < s.SP.val, a = s.stack[s.SP.val - 1] ∧ t = { s with SP := ⟨s.SP.val - 1, by omega⟩ } := by
  unfold State.pop at h
  split at h
  · next hs => exact ⟨hs, by simpa using And.imp Eq.symm Eq.symm (Prod.mk.inj (Option.some.inj h))⟩
  · cases h

/-! ### `Addr` -/

theorem addr_ok {p : OorPolicy} {k : AccessKind} {w : Word} {a : Nat} (h : a < 4096) : addr p k w a = .ok a := by
  simp [addr, h]

theorem addr_mask {k : AccessKind} {w : Word} (a : Nat) : addr .mask k w a = .ok (a % 4096) := by
  unfold addr
  split
  · next h => rw [Nat.mod_eq_of_lt h]
  · rfl

theorem addr_report_error {k : AccessKind} {w : Word} {a : Nat} (h : 4096 ≤ a) :
    addr .report k w a = .error (.outOfRangeAccess k a w) := by
  simp [addr, Nat.not_lt.mpr h]

/-- Everything `Addr` can do. -/
theorem addr_cases (p : OorPolicy) (k : AccessKind) (w : Word) (a : Nat) :
    (addr p k w a = .ok (a % 4096) ∧ (p = .mask ∨ a < 4096)) ∨
      (addr p k w a = .error (.outOfRangeAccess k a w) ∧ p = .report ∧ 4096 ≤ a) := by
  by_cases h : a < 4096
  · exact .inl ⟨by rw [addr_ok h, Nat.mod_eq_of_lt h], .inr h⟩
  · cases p with
    | mask => exact .inl ⟨addr_mask a, .inl rfl⟩
    | report => exact .inr ⟨addr_report_error (by omega), rfl, by omega⟩

/-- The addresses of `n` bytes from `base` upward, each taken modulo 4096. -/
def maskedRange (base n : Nat) : List Nat := (List.range n).map fun k => (base + k) % 4096

theorem maskedRange_succ (base n : Nat) :
    maskedRange base (n + 1) = base % 4096 :: maskedRange (base + 1) n := by
  simp only [maskedRange, List.range_succ_eq_map, List.map_cons, List.map_map, Nat.add_zero]
  congr 1
  apply List.map_congr_left
  intro k _
  simp only [Function.comp]
  congr 1
  omega

/-- Everything a run of `Addr` can do: all the addresses, or the condition of the least that is out of range. -/
theorem addrs_cases (p : OorPolicy) (k : AccessKind) (w : Word) (base n : Nat) :
    (addrs p k w base n = .ok (maskedRange base n) ∧ (p = .mask ∨ n = 0 ∨ base + n ≤ 4096)) ∨
      (addrs p k w base n = .error (.outOfRangeAccess k (max base 4096) w) ∧
        p = .report ∧ 0 < n ∧ 4096 < base + n) := by
  induction n generalizing base with
  | zero => exact .inl ⟨rfl, .inr (.inl rfl)⟩
  | succ n ih =>
    simp only [addrs]
    rcases addr_cases p k w base with ⟨h, h1⟩ | ⟨h, hp, h1⟩
    · rw [h]
      rcases ih (base + 1) with ⟨h', h2⟩ | ⟨h', hp, h2, h3⟩
      · rw [h', maskedRange_succ]
        refine .inl ⟨rfl, ?_⟩
        rcases h1 with h1 | h1
        · exact .inl h1
        · rcases h2 with h2 | h2 | h2
          · exact .inl h2
          · exact .inr (.inr (by omega))
          · exact .inr (.inr (by omega))
      · rw [h']
        rcases h1 with h1 | h1
        · rw [h1] at hp; cases hp
        · refine .inr ⟨?_, hp, by omega, by omega⟩
          simp only
          congr 2
          omega
    · rw [h]
      refine .inr ⟨?_, hp, by omega, by omega⟩
      simp only
      congr 2
      omega

theorem addrs_ok {p : OorPolicy} {k : AccessKind} {w : Word} {base n : Nat}
    (h : p = .mask ∨ n = 0 ∨ base + n ≤ 4096) : addrs p k w base n = .ok (maskedRange base n) := by
  rcases addrs_cases p k w base n with ⟨h1, _⟩ | ⟨_, h1, h2, h3⟩
  · exact h1
  · rcases h with h | h | h
    · rw [h] at h1; cases h1
    · omega
    · omega

theorem addrs_error {k : AccessKind} {w : Word} {base n : Nat} (hn : 0 < n) (h : 4096 < base + n) :
    addrs .report k w base n = .error (.outOfRangeAccess k (max base 4096) w) := by
  rcases addrs_cases .report k w base n with ⟨_, h1⟩ | ⟨h1, _⟩
  · rcases h1 with h1 | h1 | h1
    · cases h1
    · omega
    · omega
  · exact h1

@[simp] theorem length_maskedRange (base n : Nat) : (maskedRange base n).length = n := by simp [maskedRange]

theorem getElem_maskedRange (base n k : Nat) (h : k < (maskedRange base n).length) :
    (maskedRange base n)[k] = (base + k) % 4096 := by simp [maskedRange]

theorem maskedRange_lt {base n a : Nat} (h : a ∈ maskedRange base n) : a < 4096 := by
  simp only [maskedRange, List.mem_map] at h
  obtain ⟨k, _, rfl⟩ := h
  exact Nat.mod_lt _ (by decide)

theorem nodup_maskedRange {base n : Nat} (h : n ≤ 4096) : (maskedRange base n).Nodup := by
  unfold maskedRange
  refine List.Nodup.map_on (fun i hi j hj hij => ?_) List.nodup_range
  simp only [List.mem_range] at hi hj
  omega

/-! ### `KeyIndex` -/

/-- Everything `KeyIndex` can do. -/
theorem keyIndex_cases (p : OorPolicy) (w : Word) (v : Byte) :
    (∃ k : Fin 16, keyIndex p w v = .ok k ∧ k.val = v.toNat % 16 ∧ (p = .mask ∨ v.toNat < 16)) ∨
      (keyIndex p w v = .error (.outOfRangeAccess .keypad v.toNat w) ∧ p = .report ∧ 16 ≤ v.toNat) := by
  unfold keyIndex
  split
  · next h => exact .inl ⟨_, rfl, (Nat.mod_eq_of_lt h).symm, .inr h⟩
  · next h =>
    cases p with
    | mask => exact .inl ⟨_, rfl, rfl, .inl rfl⟩
    | report => exact .inr ⟨rfl, rfl, by omega⟩

/-! ### The lowest key -/

theorem lowestKey_none {key : Vector Bool 16} : lowestKey key = none ↔ ∀ k : Fin 16, key[k.val] = false := by
  have hmem : ∀ k : Fin 16, k ∈ keyOrder := by decide
  simp only [lowestKey, List.find?_eq_none, Bool.not_eq_true]
  exact ⟨fun h k => h k (hmem k), fun h k _ => h k⟩

theorem lowestKey_some {key : Vector Bool 16} {k : Fin 16} :
    lowestKey key = some k ↔ key[k.val] = true ∧ ∀ j : Fin 16, j < k → key[j.val] = false := by
  have hmem : ∀ k : Fin 16, k ∈ keyOrder := by decide
  have hsort : keyOrder.Pairwise (· < ·) := by decide
  unfold lowestKey
  rw [List.find?_eq_some_iff_append]
  constructor
  · rintro ⟨hk, as, bs, heq, has⟩
    refine ⟨hk, fun j hj => ?_⟩
    have hjm := hmem j
    rw [heq] at hjm hsort
    rcases List.mem_append.mp hjm with hj' | hj'
    · simpa using has j hj'
    · rcases List.mem_cons.mp hj' with hj' | hj'
      · exact absurd hj (by rw [hj']; exact lt_irrefl _)
      · have := (List.pairwise_cons.mp (List.pairwise_append.mp hsort).2.1).1 j hj'
        exact absurd hj (not_lt.mpr (le_of_lt this))
  · rintro ⟨hk, hlt⟩
    obtain ⟨as, bs, heq⟩ := List.append_of_mem (hmem k)
    refine ⟨hk, as, bs, heq, fun j hj => ?_⟩
    rw [heq] at hsort
    simpa using hlt j ((List.pairwise_append.mp hsort).2.2 j hj k List.mem_cons_self)

/-! ### Fetch and the checks of a meaning -/

/-- Everything a fetch can do (R74). -/
theorem State.fetch_cases (s : State) :
    (s.fetch = .ok (wordOfBytes (s.readByte (s.pc.toNat % 4096)) (s.readByte ((s.pc.toNat + 1) % 4096))) ∧
        (s.params.oorPolicy = .mask ∨ s.pc.toNat < 0xFFF)) ∨
      (s.fetch = .error (.outOfRangeAccess .fetch (max s.pc.toNat 4096) s.pc) ∧
        s.params.oorPolicy = .report ∧ 0xFFF ≤ s.pc.toNat) := by
  unfold State.fetch
  rcases addr_cases s.params.oorPolicy .fetch s.pc s.pc.toNat with ⟨h, h1⟩ | ⟨h, h1, h2⟩
  · rw [h]
    rcases addr_cases s.params.oorPolicy .fetch s.pc (s.pc.toNat + 1) with ⟨h', h2⟩ | ⟨h', h2, h3⟩
    · rw [h']
      refine .inl ⟨rfl, ?_⟩
      rcases h2 with h2 | h2
      · exact .inl h2
      · exact .inr (by omega)
    · rw [h']
      refine .inr ⟨?_, h2, by omega⟩
      rcases h1 with h1 | h1
      · rw [h1] at h2; cases h2
      · simp only
        congr 2
        omega
  · rw [h]
    refine .inr ⟨?_, h1, by omega⟩
    simp only
    congr 2
    omega

/-- A checked execute phase always answers a next state. -/
theorem State.checked_next {α : Type} (s : State) (e : Except Condition α) (run : α → State) :
    ∃ t, s.checked e run = .next t := by
  cases e <;> exact ⟨_, rfl⟩

@[simp] theorem State.checked_ok {α : Type} (s : State) (a : α) (run : α → State) :
    s.checked (.ok a) run = .next (run a) := rfl

@[simp] theorem State.checked_error {α : Type} (s : State) (c : Condition) (run : α → State) :
    s.checked (.error c) run = .next (s.raise c) := rfl

end Sys2Proof.Machine
end

