-- ==== Sys2Proof/Laws/Display.lean ====
section
/-! SUPPORT. The draw in closed form: each cell after it, and the collision flag (R111), from one lemma for a cell, one
for a row and one for a sprite. -/

namespace Sys2Proof.Machine

theorem Display.cell_setCell (d : Display) (x y i j : Nat) (b : Bool) (hx : x < 64) (hy : y < 32) :
    Display.cell (Display.setCell d x y b) i j = if i = x ∧ j = y then b else Display.cell d i j := by
  unfold Display.setCell Display.cell
  rw [dif_pos hy, Vector.getElem?_set]
  by_cases h : y = j
  · subst h
    rw [if_pos rfl]
    simp only [Vector.getElem?_setIfInBounds, hx, if_true, Vector.getElem?_eq_getElem hy]
    by_cases h1 : x = i
    · simp [h1]
    · simp [h1, Ne.symm h1]
  · simp [h, Ne.symm h]

theorem Display.cell_off (d : Display) (x y : Nat) (h : 64 ≤ x ∨ 32 ≤ y) : Display.cell d x y = false := by
  unfold Display.cell
  rcases h with h | h
  · cases d[y]? with
    | none => rfl
    | some row => simp [Nat.not_lt.mpr h]
  · rw [Vector.getElem?_eq_none h]

@[simp] theorem Display.cell_blank (x y : Nat) : Display.cell Display.blank x y = false := by
  unfold Display.cell Display.blank
  by_cases hy : y < 32
  · rw [Vector.getElem?_eq_getElem hy]
    by_cases hx : x < 64
    · simp [hx]
    · simp [hx]
  · rw [Vector.getElem?_eq_none (Nat.not_lt.mp hy)]

/-- Two displays with the same cells are the same. -/
theorem Display.ext_cell {d e : Display}
    (h : ∀ x y, x < 64 → y < 32 → Display.cell d x y = Display.cell e x y) : d = e := by
  apply Vector.ext
  intro y hy
  apply Vector.ext
  intro x hx
  have := h x y hx hy
  simpa [Display.cell, Vector.getElem?_eq_getElem hy, Vector.getElem?_eq_getElem hx] using this

/-- The bit that a row of bits puts on column `i`. -/
def rowBit (x : Nat) (bits : List Bool) (i : Nat) : Bool :=
  decide (x ≤ i) && decide (i < 64) && (bits[i - x]?).getD false

theorem rowBit_nil (x i : Nat) : rowBit x [] i = false := by simp [rowBit]

theorem rowBit_cons (x i : Nat) (b : Bool) (bits : List Bool) (hx : x < 64) :
    rowBit x (b :: bits) i = if i = x then b else rowBit (x + 1) bits i := by
  unfold rowBit
  by_cases h : i = x
  · subst h; simp [hx]
  · rw [if_neg h]
    by_cases h1 : x ≤ i
    · have h2 : x + 1 ≤ i := by omega
      have h3 : i - x = (i - (x + 1)) + 1 := by omega
      simp [h1, h2, h3]
    · have h2 : ¬ x + 1 ≤ i := by omega
      simp [h1, h2]

theorem rowBit_off (x i : Nat) (bits : List Bool) (hx : 64 ≤ x) : rowBit x bits i = false := by
  unfold rowBit
  by_cases h : x ≤ i
  · simp [show ¬ i < 64 by omega]
  · simp [h]

/-- A row XORs its bits onto row `y`. -/
theorem cell_drawRow (y : Nat) (hy : y < 32) (x : Nat) (bits : List Bool) (c : Canvas) (i j : Nat) :
    Display.cell (drawRow y x bits c).1 i j = (Display.cell c.1 i j ^^ (decide (j = y) && rowBit x bits i)) := by
  induction bits generalizing x c with
  | nil => simp [drawRow, rowBit_nil]
  | cons b bits ih =>
    simp only [drawRow]
    by_cases hx : x < 64
    · rw [if_neg (by simpa using hx), ih, rowBit_cons x i b bits hx]
      cases b with
      | false => by_cases h : i = x <;> simp [h, rowBit]
      | true =>
        simp only [if_true, plot]
        rw [Display.cell_setCell _ _ _ _ _ _ hx hy]
        by_cases h : i = x
        · subst h
          by_cases h1 : j = y
          · subst h1; simp [rowBit]
          · simp [h1]
        · simp [h]
    · rw [if_pos (by simpa using hx), rowBit_off _ _ _ (by omega)]; simp

/-- A row sets the flag exactly when one of its bits meets a cell that is on. -/
theorem flag_drawRow (y : Nat) (hy : y < 32) (x : Nat) (bits : List Bool) (c : Canvas) :
    (drawRow y x bits c).2 = true ↔
      c.2 = true ∨ ∃ i, rowBit x bits i = true ∧ Display.cell c.1 i y = true := by
  induction bits generalizing x c with
  | nil => simp [drawRow, rowBit_nil]
  | cons b bits ih =>
    simp only [drawRow]
    by_cases hx : x < 64
    · rw [if_neg (by simpa using hx), ih]
      have hstep : (∃ i, rowBit x (b :: bits) i = true ∧ Display.cell c.1 i y = true) ↔
          (b = true ∧ Display.cell c.1 x y = true) ∨
            ∃ i, rowBit (x + 1) bits i = true ∧ Display.cell c.1 i y = true := by
        constructor
        · rintro ⟨i, h1, h2⟩
          rw [rowBit_cons x i b bits hx] at h1
          by_cases h : i = x
          · subst h; exact .inl ⟨by simpa using h1, h2⟩
          · exact .inr ⟨i, by simpa [h] using h1, h2⟩
        · rintro (⟨h1, h2⟩ | ⟨i, h1, h2⟩)
          · exact ⟨x, by rw [rowBit_cons x x b bits hx]; simpa using h1, h2⟩
          · have hne : i ≠ x := by
              rintro rfl
              simp [rowBit] at h1
            exact ⟨i, by rw [rowBit_cons x i b bits hx, if_neg hne]; exact h1, h2⟩
      rw [hstep]
      cases b with
      | false => simp
      | true =>
        simp only [if_true, plot, Bool.or_eq_true, true_and, or_assoc]
        have hsame : (∃ i, rowBit (x + 1) bits i = true ∧
              Display.cell (Display.setCell c.1 x y (!Display.cell c.1 x y)) i y = true) ↔
            ∃ i, rowBit (x + 1) bits i = true ∧ Display.cell c.1 i y = true := by
          refine exists_congr fun i => and_congr_right fun h => ?_
          have hne : i ≠ x := by
            rintro rfl
            simp [rowBit] at h
          rw [Display.cell_setCell _ _ _ _ _ _ hx hy, if_neg (by simp [hne])]
        rw [hsame]
    · rw [if_pos (by simpa using hx)]
      constructor
      · exact .inl
      · rintro (h | ⟨i, h, _⟩)
        · exact h
        · rw [rowBit_off _ _ _ (by omega)] at h; cases h

theorem spriteBits_getD (b : Byte) (k : Nat) :
    ((spriteBits b)[k]?).getD false = (decide (k < 8) && b.getLsbD (7 - k)) := by
  match k with
  | 0 | 1 | 2 | 3 | 4 | 5 | 6 | 7 => simp [spriteBits]
  | k + 8 => simp [spriteBits]

theorem rowBit_spriteBits (x0 : Nat) (b : Byte) (i : Nat) :
    rowBit x0 (spriteBits b) i =
      (decide (x0 ≤ i) && decide (i < 64) && (decide (i - x0 < 8) && b.getLsbD (7 - (i - x0)))) := by
  rw [rowBit, spriteBits_getD]

/-- The bit that a sprite at (x0, y0) puts on the cell (x, y) is 0 outside the sprite's rows. -/
theorem spriteBit_nil (x0 y0 x y : Nat) : spriteBit x0 y0 [] x y = false := by simp [spriteBit]

theorem spriteBit_cons (x0 y0 x y : Nat) (b : Byte) (bs : List Byte) :
    spriteBit x0 y0 (b :: bs) x y =
      if y = y0 then rowBit x0 (spriteBits b) x else spriteBit x0 (y0 + 1) bs x y := by
  rw [rowBit_spriteBits]
  by_cases h : y = y0
  · subst h
    rw [if_pos rfl]
    simp only [spriteBit, Nat.sub_self, List.getElem?_cons_zero, le_refl, decide_true]
    by_cases h1 : x0 ≤ x <;> by_cases h2 : x < 64 <;> by_cases h3 : x < x0 + 8 <;>
      simp [h1, h2, h3, show (x - x0 < 8 ↔ x < x0 + 8) from by omega]
  · rw [if_neg h]
    unfold spriteBit
    by_cases h1 : y0 ≤ y
    · have h2 : y0 + 1 ≤ y := by omega
      have h3 : y - y0 = (y - (y0 + 1)) + 1 := by omega
      simp [h1, h2, h3]
    · have h2 : ¬ y0 + 1 ≤ y := by omega
      simp [h1, h2]

/-- A sprite XORs its bits onto the display. -/
theorem cell_drawRows (x0 : Nat) (bs : List Byte) (y0 : Nat) (h : y0 + bs.length ≤ 32) (c : Canvas) (x y : Nat) :
    Display.cell (drawRows x0 y0 bs c).1 x y = (Display.cell c.1 x y ^^ spriteBit x0 y0 bs x y) := by
  induction bs generalizing y0 c with
  | nil => simp [drawRows, spriteBit_nil]
  | cons b bs ih =>
    simp only [List.length_cons] at h
    rw [drawRows, ih (y0 + 1) (by omega), cell_drawRow y0 (by omega), spriteBit_cons]
    by_cases h1 : y = y0
    · subst h1
      have : spriteBit x0 (y + 1) bs x y = false := by simp [spriteBit]
      simp [this]
    · simp [h1]

/-- A sprite sets the flag exactly when one of its bits meets a cell that was on. -/
theorem flag_drawRows (x0 : Nat) (bs : List Byte) (y0 : Nat) (h : y0 + bs.length ≤ 32) (c : Canvas) :
    (drawRows x0 y0 bs c).2 = true ↔
      c.2 = true ∨ ∃ x y, spriteBit x0 y0 bs x y = true ∧ Display.cell c.1 x y = true := by
  induction bs generalizing y0 c with
  | nil => simp [drawRows, spriteBit_nil]
  | cons b bs ih =>
    simp only [List.length_cons] at h
    have hrow : ∀ x y, spriteBit x0 (y0 + 1) bs x y = true → y ≠ y0 := by
      rintro x y h rfl
      simp [spriteBit] at h
    rw [drawRows, ih (y0 + 1) (by omega), flag_drawRow y0 (by omega), or_assoc]
    refine or_congr_right ⟨?_, ?_⟩
    · rintro (⟨i, h1, h2⟩ | ⟨x, y, h1, h2⟩)
      · exact ⟨i, y0, by rw [spriteBit_cons, if_pos rfl]; exact h1, h2⟩
      · have hy := hrow x y h1
        rw [cell_drawRow y0 (by omega)] at h2
        exact ⟨x, y, by rw [spriteBit_cons, if_neg hy]; exact h1, by simpa [hy] using h2⟩
    · rintro ⟨x, y, h1, h2⟩
      rw [spriteBit_cons] at h1
      by_cases hy : y = y0
      · subst hy; exact .inl ⟨x, by simpa using h1, h2⟩
      · rw [if_neg hy] at h1
        refine .inr ⟨x, y, h1, ?_⟩
        rw [cell_drawRow y0 (by omega)]
        simpa [hy] using h2

end Sys2Proof.Machine
end

