-- ==== Sys2Proof/Laws/Frames.lean ====
section
/-! SUPPORT. The frame of each update: what it leaves unchanged, in the vocabulary of `SameBut`. -/

namespace Sys2Proof.Machine

/-- A frame may be stated more loosely. -/
theorem SameBut.mono {s t : State} {w w' : Reg → Prop} {m m' : Nat → Prop} {l l' : List Part}
    (h : SameBut s t w m l) (hw : ∀ r, w r → w' r) (hm : ∀ a, m a → m' a) (hl : ∀ q ∈ l, q ∈ l') :
    SameBut s t w' m' l' :=
  ⟨fun r hr => h.regs r fun h1 => hr (hw r h1), fun a ha => h.mem a fun h1 => ha (hm a h1),
    fun q hq => h.parts q fun h1 => hq (hl q h1)⟩

theorem SameBut.refl (s : State) (w : Reg → Prop) (m : Nat → Prop) (l : List Part) : SameBut s s w m l :=
  ⟨fun _ _ => rfl, fun _ _ => rfl, fun q _ => by cases q <;> simp [Part.same]⟩

theorem sameBut_setReg (s : State) (x : Reg) (b : Byte) {w : Reg → Prop} (h : w x) (m : Nat → Prop)
    (l : List Part) : SameBut s (s.setReg x b) w m l :=
  ⟨fun r hr => State.reg_setReg_other s b fun h1 => hr (h1 ▸ h), fun _ _ => rfl,
    fun q _ => by cases q <;> simp [Part.same]⟩

theorem sameBut_setResultFlag (s : State) (x : Reg) (b : Byte) (f : Bool) {w : Reg → Prop} (h : w x) (hf : w VF)
    (m : Nat → Prop) (l : List Part) : SameBut s (s.setResultFlag x b f) w m l :=
  ⟨fun r hr => by
    rw [State.reg_setResultFlag, if_neg (by rintro rfl; exact hr hf), if_neg (by rintro rfl; exact hr h)], fun _ _ => rfl,
    fun q _ => by cases q <;> simp [Part.same]⟩

theorem sameBut_setRegs (s : State) (bs : List Byte) {w : Reg → Prop} (h : ∀ r : Reg, r.val < bs.length → w r)
    (m : Nat → Prop) (l : List Part) : SameBut s (s.setRegs bs) w m l :=
  ⟨fun r hr => by
    rw [State.reg_setRegs, List.getElem?_eq_none (Nat.not_lt.mp fun h1 => hr (h r h1)), Option.getD_none],
    fun _ _ => rfl, fun q _ => by cases q <;> simp [Part.same]⟩

theorem sameBut_setCanvas (s : State) (c : Canvas) {w : Reg → Prop} (h : w VF) (m : Nat → Prop) {l : List Part}
    (hl : Part.fb ∈ l) : SameBut s (s.setCanvas c) w m l :=
  ⟨fun r hr => by rw [State.reg_setCanvas, if_neg (by rintro rfl; exact hr h)], fun _ _ => rfl,
    fun q hq => by cases q <;> simp_all [Part.same]⟩

theorem sameBut_setPc (s : State) (a : Word) (w : Reg → Prop) (m : Nat → Prop) {l : List Part}
    (hl : Part.pc ∈ l) : SameBut s (s.setPc a) w m l :=
  ⟨fun _ _ => rfl, fun _ _ => rfl, fun q hq => by cases q <;> simp_all [Part.same]⟩

theorem sameBut_setI (s : State) (a : Word) (w : Reg → Prop) (m : Nat → Prop) {l : List Part}
    (hl : Part.I ∈ l) : SameBut s (s.setI a) w m l :=
  ⟨fun _ _ => rfl, fun _ _ => rfl, fun q hq => by cases q <;> simp_all [Part.same]⟩

theorem sameBut_setFb (s : State) (d : Display) (w : Reg → Prop) (m : Nat → Prop) {l : List Part}
    (hl : Part.fb ∈ l) : SameBut s (s.setFb d) w m l :=
  ⟨fun _ _ => rfl, fun _ _ => rfl, fun q hq => by cases q <;> simp_all [Part.same]⟩

theorem sameBut_writeBytes (s : State) (as : List Nat) (bs : List Byte) (w : Reg → Prop) {m : Nat → Prop}
    (h : ∀ a ∈ as, m a) (l : List Part) : SameBut s (s.writeBytes as bs) w m l :=
  ⟨fun _ _ => State.reg_writeBytes .., fun a ha => State.readByte_writeBytes_other s as bs a fun h1 => ha (h a h1),
    fun q _ => by rw [State.writeBytes_eq]; cases q <;> simp [Part.same]⟩

theorem sameBut_raise (s : State) (c : Condition) (w : Reg → Prop) (m : Nat → Prop) {l : List Part}
    (hh : Part.halted ∈ l) (hs : Part.status ∈ l) : SameBut s (s.raise c) w m l :=
  ⟨fun _ _ => rfl, fun _ _ => rfl, fun q hq => by cases q <;> simp_all [Part.same]⟩

theorem sameBut_report (s : State) (c : Condition) (w : Reg → Prop) (m : Nat → Prop) {l : List Part}
    (hs : Part.status ∈ l) : SameBut s (s.report c) w m l :=
  ⟨fun _ _ => rfl, fun _ _ => rfl, fun q hq => by cases q <;> simp_all [Part.same]⟩

theorem sameBut_skipIf (s : State) (c : Bool) (w : Reg → Prop) (m : Nat → Prop) {l : List Part}
    (hl : Part.pc ∈ l) : SameBut s (s.skipIf c) w m l := by
  rw [State.skipIf_eq]; exact sameBut_setPc s _ w m hl

end Sys2Proof.Machine
end

