-- ==== Sys2Proof/Laws/PerInstr.lean ====
section
/-! SUPPORT. Facts about every instruction as syntax, one lemma per constructor. -/

namespace Sys2Proof.Laws

/-- The instruction is what its word decodes to, and its word matches its own row of the opcode map. -/
def RoundTrip.Statement (i : Instr) : Prop :=
  decodeWord (encode i) = .ok i ∧ encode i &&& i.row.mask = i.row.pattern

theorem RoundTrip.cls : RoundTrip.Statement .cls := by unfold RoundTrip.Statement; decide

theorem RoundTrip.ret : RoundTrip.Statement .ret := by unfold RoundTrip.Statement; decide

theorem RoundTrip.jp (nnn : Addr12) : RoundTrip.Statement (.jp nnn) :=
  ⟨by simp [encode, decodeWord], by simp only [encode, Instr.row, and_mask_F000]; simp; rfl⟩

theorem RoundTrip.call (nnn : Addr12) : RoundTrip.Statement (.call nnn) :=
  ⟨by simp [encode, decodeWord], by simp only [encode, Instr.row, and_mask_F000]; simp; rfl⟩

theorem RoundTrip.seVxNn (x : Reg) (nn : Byte) : RoundTrip.Statement (.seVxNn x nn) :=
  ⟨by simp [encode, decodeWord], by simp only [encode, Instr.row, and_mask_F000]; simp; rfl⟩

theorem RoundTrip.sneVxNn (x : Reg) (nn : Byte) : RoundTrip.Statement (.sneVxNn x nn) :=
  ⟨by simp [encode, decodeWord], by simp only [encode, Instr.row, and_mask_F000]; simp; rfl⟩

theorem RoundTrip.seVxVy (x y : Reg) (n : Nibble) : RoundTrip.Statement (.seVxVy x y n) :=
  ⟨by simp [encode, decodeWord], by simp only [encode, Instr.row, and_mask_F000]; simp; rfl⟩

theorem RoundTrip.ldVxNn (x : Reg) (nn : Byte) : RoundTrip.Statement (.ldVxNn x nn) :=
  ⟨by simp [encode, decodeWord], by simp only [encode, Instr.row, and_mask_F000]; simp; rfl⟩

theorem RoundTrip.addVxNn (x : Reg) (nn : Byte) : RoundTrip.Statement (.addVxNn x nn) :=
  ⟨by simp [encode, decodeWord], by simp only [encode, Instr.row, and_mask_F000]; simp; rfl⟩

theorem RoundTrip.ldVxVy (x y : Reg) : RoundTrip.Statement (.ldVxVy x y) :=
  ⟨by simp [encode, decodeWord, decode8], by simp only [encode, Instr.row, and_mask_F00F]; simp; rfl⟩

theorem RoundTrip.or (x y : Reg) : RoundTrip.Statement (.or x y) :=
  ⟨by simp [encode, decodeWord, decode8], by simp only [encode, Instr.row, and_mask_F00F]; simp; rfl⟩

theorem RoundTrip.and (x y : Reg) : RoundTrip.Statement (.and x y) :=
  ⟨by simp [encode, decodeWord, decode8], by simp only [encode, Instr.row, and_mask_F00F]; simp; rfl⟩

theorem RoundTrip.xor (x y : Reg) : RoundTrip.Statement (.xor x y) :=
  ⟨by simp [encode, decodeWord, decode8], by simp only [encode, Instr.row, and_mask_F00F]; simp; rfl⟩

theorem RoundTrip.addVxVy (x y : Reg) : RoundTrip.Statement (.addVxVy x y) :=
  ⟨by simp [encode, decodeWord, decode8], by simp only [encode, Instr.row, and_mask_F00F]; simp; rfl⟩

theorem RoundTrip.sub (x y : Reg) : RoundTrip.Statement (.sub x y) :=
  ⟨by simp [encode, decodeWord, decode8], by simp only [encode, Instr.row, and_mask_F00F]; simp; rfl⟩

theorem RoundTrip.shr (x y : Reg) : RoundTrip.Statement (.shr x y) :=
  ⟨by simp [encode, decodeWord, decode8], by simp only [encode, Instr.row, and_mask_F00F]; simp; rfl⟩

theorem RoundTrip.subn (x y : Reg) : RoundTrip.Statement (.subn x y) :=
  ⟨by simp [encode, decodeWord, decode8], by simp only [encode, Instr.row, and_mask_F00F]; simp; rfl⟩

theorem RoundTrip.shl (x y : Reg) : RoundTrip.Statement (.shl x y) :=
  ⟨by simp [encode, decodeWord, decode8], by simp only [encode, Instr.row, and_mask_F00F]; simp; rfl⟩

theorem RoundTrip.sneVxVy (x y : Reg) (n : Nibble) : RoundTrip.Statement (.sneVxVy x y n) :=
  ⟨by simp [encode, decodeWord], by simp only [encode, Instr.row, and_mask_F000]; simp; rfl⟩

theorem RoundTrip.ldI (nnn : Addr12) : RoundTrip.Statement (.ldI nnn) :=
  ⟨by simp [encode, decodeWord], by simp only [encode, Instr.row, and_mask_F000]; simp; rfl⟩

theorem RoundTrip.jpV0 (nnn : Addr12) : RoundTrip.Statement (.jpV0 nnn) :=
  ⟨by simp [encode, decodeWord], by simp only [encode, Instr.row, and_mask_F000]; simp; rfl⟩

theorem RoundTrip.rnd (x : Reg) (nn : Byte) : RoundTrip.Statement (.rnd x nn) :=
  ⟨by simp [encode, decodeWord], by simp only [encode, Instr.row, and_mask_F000]; simp; rfl⟩

theorem RoundTrip.drw (x y : Reg) (n : Nibble) : RoundTrip.Statement (.drw x y n) :=
  ⟨by simp [encode, decodeWord], by simp only [encode, Instr.row, and_mask_F000]; simp; rfl⟩

theorem RoundTrip.skp (x : Reg) : RoundTrip.Statement (.skp x) :=
  ⟨by simp [encode, decodeWord, decodeE], by simp only [encode, Instr.row, and_mask_F0FF]; simp; rfl⟩

theorem RoundTrip.sknp (x : Reg) : RoundTrip.Statement (.sknp x) :=
  ⟨by simp [encode, decodeWord, decodeE], by simp only [encode, Instr.row, and_mask_F0FF]; simp; rfl⟩

theorem RoundTrip.ldVxDt (x : Reg) : RoundTrip.Statement (.ldVxDt x) :=
  ⟨by simp [encode, decodeWord, decodeF], by simp only [encode, Instr.row, and_mask_F0FF]; simp; rfl⟩

theorem RoundTrip.ldVxK (x : Reg) : RoundTrip.Statement (.ldVxK x) :=
  ⟨by simp [encode, decodeWord, decodeF], by simp only [encode, Instr.row, and_mask_F0FF]; simp; rfl⟩

theorem RoundTrip.ldDtVx (x : Reg) : RoundTrip.Statement (.ldDtVx x) :=
  ⟨by simp [encode, decodeWord, decodeF], by simp only [encode, Instr.row, and_mask_F0FF]; simp; rfl⟩

theorem RoundTrip.ldStVx (x : Reg) : RoundTrip.Statement (.ldStVx x) :=
  ⟨by simp [encode, decodeWord, decodeF], by simp only [encode, Instr.row, and_mask_F0FF]; simp; rfl⟩

theorem RoundTrip.addIVx (x : Reg) : RoundTrip.Statement (.addIVx x) :=
  ⟨by simp [encode, decodeWord, decodeF], by simp only [encode, Instr.row, and_mask_F0FF]; simp; rfl⟩

theorem RoundTrip.ldFVx (x : Reg) : RoundTrip.Statement (.ldFVx x) :=
  ⟨by simp [encode, decodeWord, decodeF], by simp only [encode, Instr.row, and_mask_F0FF]; simp; rfl⟩

theorem RoundTrip.ldBVx (x : Reg) : RoundTrip.Statement (.ldBVx x) :=
  ⟨by simp [encode, decodeWord, decodeF], by simp only [encode, Instr.row, and_mask_F0FF]; simp; rfl⟩

theorem RoundTrip.ldMemVx (x : Reg) : RoundTrip.Statement (.ldMemVx x) :=
  ⟨by simp [encode, decodeWord, decodeF], by simp only [encode, Instr.row, and_mask_F0FF]; simp; rfl⟩

theorem RoundTrip.ldVxMem (x : Reg) : RoundTrip.Statement (.ldVxMem x) :=
  ⟨by simp [encode, decodeWord, decodeF], by simp only [encode, Instr.row, and_mask_F0FF]; simp; rfl⟩

end Sys2Proof.Laws
end

