-- ==== Sys2Proof/Laws/Step.lean ====
section
/-! SUPPORT. What a step can do: four cases, in the order of R122; and its parts. -/

namespace Sys2Proof.Machine

/-- Everything a step can do: the latch, a fetch that raises, an unmapped word, or an instruction. -/
theorem step_cases (s : State) :
    (∃ c, s.halted = some c ∧ step s = .next (s.haltedStep c)) ∨
      (s.halted = none ∧ ∃ c, s.fetch = .error c ∧ step s = .next (s.fetchFaultStep c)) ∨
      (s.halted = none ∧ ∃ w e, s.fetch = .ok w ∧ decodeWord w = .error e ∧ step s = .next (s.unknownStep w)) ∨
      (s.halted = none ∧ ∃ w i, s.fetch = .ok w ∧ decodeWord w = .ok i ∧ step s = exec i s.preAdvance) := by
  unfold step
  cases hh : s.halted with
  | some c => exact .inl ⟨c, rfl, rfl⟩
  | none =>
    cases hf : s.fetch with
    | error c => exact .inr (.inl ⟨rfl, c, rfl, rfl⟩)
    | ok w =>
      cases hd : decodeWord w with
      | error e => exact .inr (.inr (.inl ⟨rfl, w, e, rfl, hd, by simp [hd]⟩))
      | ok i => exact .inr (.inr (.inr ⟨rfl, w, i, rfl, hd, by simp [hd]⟩))

theorem step_halted {s : State} {c : Condition} (h : s.halted = some c) : step s = .next (s.haltedStep c) := by
  simp [step, h]

theorem step_exec {s : State} {w : Word} {i : Instr} (h : s.halted = none) (hf : s.fetch = .ok w)
    (hd : decodeWord w = .ok i) : step s = exec i s.preAdvance := by
  simp [step, h, hf, hd]

theorem step_unmapped {s : State} {w : Word} {e : DecodeError} (h : s.halted = none) (hf : s.fetch = .ok w)
    (hd : decodeWord w = .error e) : step s = .next (s.unknownStep w) := by
  simp [step, h, hf, hd]

theorem step_fetch_error {s : State} {c : Condition} (h : s.halted = none) (hf : s.fetch = .error c) :
    step s = .next (s.fetchFaultStep c) := by
  simp [step, h, hf]

/-- The pre-advance is undone by `pc0`. -/
@[simp] theorem State.pc0_preAdvance (s : State) : s.preAdvance.pc0 = s.pc := by simp [State.pc0]

/-! ### The trace record -/

/-- What a list of changes holds: of the registers listed, those whose value differs, with both values. -/
theorem mem_deltas {ρ α : Type} [DecidableEq α] (before after : ρ → α) (rs : List ρ) (r : ρ) (a b : α) :
    (⟨r, a, b⟩ : Delta ρ α) ∈ deltas before after rs ↔ r ∈ rs ∧ a = before r ∧ b = after r ∧ a ≠ b := by
  simp only [deltas, List.mem_map, List.mem_filter, decide_eq_true_eq, Delta.mk.injEq]
  constructor
  · rintro ⟨q, ⟨hq, hne⟩, rfl, rfl, rfl⟩
    exact ⟨hq, rfl, rfl, hne⟩
  · rintro ⟨hr, rfl, rfl, hne⟩
    exact ⟨r, ⟨hr, hne⟩, rfl, rfl, rfl⟩

theorem mem_allRegs : ∀ r : Reg, r ∈ allRegs := by decide

theorem mem_allSpecials (q : SpecialReg) : q ∈ allSpecials := by cases q <;> decide

/-! ### The transactions -/

@[simp] theorem transact_init (s : State) : transact .init s = .next (s.coreInit, .nothing) := rfl
@[simp] theorem transact_load (b : List Byte) (s : State) :
    transact (.load b) s = .next ((s.load b).1, .loaded (s.load b).2) := rfl
@[simp] theorem transact_tickTimers (s : State) : transact .tickTimers s = .next (s.tickTimers, .nothing) := rfl
@[simp] theorem transact_setInput (k : Word) (s : State) :
    transact (.setInput k) s = .next (s.setInput k, .nothing) := rfl
@[simp] theorem transact_displaySnapshot (s : State) :
    transact .displaySnapshot s = .next (s, .cells s.displaySnapshot) := rfl
@[simp] theorem transact_soundTimerActive (s : State) :
    transact .soundTimerActive s = .next (s, .active s.soundTimerActive) := rfl

theorem transact_step {s t : State} (b : Bool) (h : step s = .next t) :
    transact (.step b) s = .next (t, .stepped t.status (if b then some (traceRecord s t) else none)) := by
  simp [transact, h]

/-- A schedule runs its transactions in order. -/
theorem runSchedule_cons {t : Transaction} {ts : List Transaction} {s u : State} {r : Response}
    (h : transact t s = .next (u, r)) : runSchedule (t :: ts) s = runSchedule ts u := by
  simp [runSchedule, h]

/-- The next fetch after `withFetchWord` reads the word that was placed. -/
theorem State.fetch_withFetchWord (s : State) (nbits w : Nat) :
    (s.withFetchWord nbits w).fetch = .ok (tableWord nbits w) ∧ (s.withFetchWord nbits w).halted = none := by
  refine ⟨?_, rfl⟩
  rcases State.fetch_cases (s.withFetchWord nbits w) with ⟨h, _⟩ | ⟨_, h1, h2⟩
  · rw [h]
    have hne : (s.readyToFetch.pc.toNat + 1) % 4096 ≠ s.readyToFetch.pc.toNat % 4096 := by omega
    have hlo : (s.withFetchWord nbits w).readByte ((s.readyToFetch.pc.toNat + 1) % 4096) =
        lowByte (tableWord nbits w) := by
      simp [State.withFetchWord, State.placeWord, State.readByte_writeByte]
    have hhi : (s.withFetchWord nbits w).readByte (s.readyToFetch.pc.toNat % 4096) =
        highByte (tableWord nbits w) := by
      simp [State.withFetchWord, State.placeWord, State.readByte_writeByte, hne]
    have hpc : (s.withFetchWord nbits w).pc = s.readyToFetch.pc := rfl
    rw [hpc, hlo, hhi, wordOfBytes_high_low]
  · exfalso
    have hp : s.params.oorPolicy = .report := h1
    have hpc : (s.withFetchWord nbits w).pc =
        if s.params.oorPolicy = .mask ∨ s.pc.toNat + 1 < Config.memSize then s.pc else 0x200 := rfl
    rw [hpc, hp] at h2
    split at h2
    · next h3 =>
      rcases h3 with h3 | h3
      · cases h3
      · simp only [Config.memSize] at h3; omega
    · exact absurd h2 (by decide)

end Sys2Proof.Machine
end

