-- ==== Sys2Proof/Machine/Asm.lean ====
section
/-! DEFINITION. The spec's own notation for programs (30_encoding.md R69, R70), from abstract syntax: the text of an
instruction, and the image of a program with labels and data. No behaviour depends on it (D23). -/

namespace Sys2Proof.Machine

/-! ### The text of an instruction -/

/-- A hexadecimal digit. -/
def hexDigit (n : Nat) : Char :=
  if n % 16 < 10 then Char.ofNat (48 + n % 16) else Char.ofNat (55 + n % 16)

/-- `0x` and `digits` hexadecimal digits. -/
def hexNumber (digits n : Nat) : String :=
  "0x" ++ String.ofList ((List.range digits).reverse.map fun k => hexDigit (n / 16 ^ k))

/-- `V0` to `VF`. -/
def regName (x : Reg) : String := "V" ++ String.ofList [hexDigit x.val]

/-- The operands of one register and of two. -/
def textX (m : String) (x : Reg) : String := m ++ " " ++ regName x
def textXY (m : String) (x y : Reg) : String := textX m x ++ ", " ++ regName y
def textXNN (m : String) (x : Reg) (nn : Byte) : String := textX m x ++ ", " ++ hexNumber 2 nn.toNat

/-- An instruction in the syntax of R69. -/
def instrText : Instr → String
  | .cls => "CLS"
  | .ret => "RET"
  | .jp nnn => "JP " ++ hexNumber 3 nnn.toNat
  | .call nnn => "CALL " ++ hexNumber 3 nnn.toNat
  | .seVxNn x nn => textXNN "SE" x nn
  | .sneVxNn x nn => textXNN "SNE" x nn
  | .seVxVy x y _ => textXY "SE" x y
  | .ldVxNn x nn => textXNN "LD" x nn
  | .addVxNn x nn => textXNN "ADD" x nn
  | .ldVxVy x y => textXY "LD" x y
  | .or x y => textXY "OR" x y
  | .and x y => textXY "AND" x y
  | .xor x y => textXY "XOR" x y
  | .addVxVy x y => textXY "ADD" x y
  | .sub x y => textXY "SUB" x y
  | .shr x y => textXY "SHR" x y
  | .subn x y => textXY "SUBN" x y
  | .shl x y => textXY "SHL" x y
  | .sneVxVy x y _ => textXY "SNE" x y
  | .ldI nnn => "LD I, " ++ hexNumber 3 nnn.toNat
  | .jpV0 nnn => "JP V0, " ++ hexNumber 3 nnn.toNat
  | .rnd x nn => textXNN "RND" x nn
  | .drw x y n => textXY "DRW" x y ++ ", " ++ hexNumber 1 n.toNat
  | .skp x => textX "SKP" x
  | .sknp x => textX "SKNP" x
  | .ldVxDt x => textX "LD" x ++ ", DT"
  | .ldVxK x => textX "LD" x ++ ", K"
  | .ldDtVx x => textX "LD DT," x
  | .ldStVx x => textX "LD ST," x
  | .addIVx x => textX "ADD I," x
  | .ldFVx x => textX "LD F," x
  | .ldBVx x => textX "LD B," x
  | .ldMemVx x => textX "LD [I]," x
  | .ldVxMem x => textX "LD" x ++ ", [I]"

/-! ### The image of a program -/

/-- The instructions whose operand is an address, so that a label can stand for it. -/
inductive LabelUse
  | jp
  | call
  | ldI
  | jpV0
deriving DecidableEq, Repr

/-- A line of a program: a label for the address of the next byte, an instruction, an instruction on a label, or
`DB` data. -/
inductive AsmLine
  | label (name : String)
  | code (i : Instr)
  | codeAt (u : LabelUse) (name : String)
  | db (bytes : List Byte)
deriving DecidableEq, Repr

/-- How many bytes a line takes. -/
def AsmLine.size : AsmLine → Nat
  | .label _ => 0
  | .code _ => 2
  | .codeAt _ _ => 2
  | .db bytes => bytes.length

/-- The address of a label in the lines from address `a` on. -/
def labelAddress (name : String) : (a : Nat) → List AsmLine → Option Nat
  | _, [] => none
  | a, .label n :: ls => if n = name then some a else labelAddress name a ls
  | a, l :: ls => labelAddress name (a + l.size) ls

/-- The instruction of a label use. -/
def LabelUse.instr (u : LabelUse) (nnn : Addr12) : Instr :=
  match u with
  | .jp => .jp nnn
  | .call => .call nnn
  | .ldI => .ldI nnn
  | .jpV0 => .jpV0 nnn

/-- The bytes of the lines `ls` of a program `program`, or none if a label has no address or one of more than 12
bits. -/
def emitLines (program : List AsmLine) : List AsmLine → Option (List Byte)
  | [] => some []
  | l :: ls =>
    match emitLines program ls with
    | none => none
    | some rest =>
      match l with
      | .label _ => some rest
      | .code i => some (encodeBytes i ++ rest)
      | .db bytes => some (bytes ++ rest)
      | .codeAt u name =>
        match labelAddress name Config.programStart program with
        | none => none
        | some a =>
          if a < Config.memSize then some (encodeBytes (u.instr (BitVec.ofNat 12 a)) ++ rest) else none

/-- The image of a program: raw bytes with no header, from 0x200 (R69, R70). -/
def assemble (program : List AsmLine) : Option (List Byte) := emitLines program program

end Sys2Proof.Machine
end

