-- ==== Sys2Proof/Tests/Slice0.lean ====
section
/-! SUPPORT. Tests. The words are written out from the bit layouts of 30_encoding.md (R64, R66); the expected results are
the vectors of 95_test_vectors.md, named in each comment. The last section holds one witness for each statement that has
hypotheses: a concrete state and operands that meet them. -/

namespace Sys2Proof.Tests

open Sys2Proof Sys2Proof.Machine

/-! ### Decoding: one word of every row, its fields in binary: category, X, Y, N (R62) -/

theorem test_decode_control :
    decodeWord 0b0000000011100000 = .ok .cls ∧ decodeWord 0b0000000011101110 = .ok .ret ∧
      decodeWord 0b0001_0010_0010_1000 = .ok (.jp 0x228) ∧ decodeWord 0b0010_0011_0000_0000 = .ok (.call 0x300) ∧
      decodeWord 0b1011_1111_0000_0001 = .ok (.jpV0 0xF01) ∧ decodeWord 0b1010_1111_1111_1111 = .ok (.ldI 0xFFF) := by
  decide

theorem test_decode_immediate :
    decodeWord 0b0011_0011_0100_0010 = .ok (.seVxNn 3 0x42) ∧
      decodeWord 0b0100_0011_0100_0010 = .ok (.sneVxNn 3 0x42) ∧
      decodeWord 0b0110_1111_1010_1011 = .ok (.ldVxNn 15 0xAB) ∧
      decodeWord 0b0111_0010_0010_0000 = .ok (.addVxNn 2 0x20) ∧
      decodeWord 0b1100_0011_0000_1111 = .ok (.rnd 3 0x0F) := by decide

theorem test_decode_registers :
    decodeWord 0b0101_0001_0010_0111 = .ok (.seVxVy 1 2 7) ∧
      decodeWord 0b1001_0001_0010_0000 = .ok (.sneVxVy 1 2 0) ∧
      decodeWord 0b1101_0000_0001_0101 = .ok (.drw 0 1 5) := by decide

theorem test_decode_alu :
    decodeWord 0b1000_0001_0010_0000 = .ok (.ldVxVy 1 2) ∧ decodeWord 0b1000_0001_0010_0001 = .ok (.or 1 2) ∧
      decodeWord 0b1000_0001_0010_0010 = .ok (.and 1 2) ∧ decodeWord 0b1000_0001_0010_0011 = .ok (.xor 1 2) ∧
      decodeWord 0b1000_0001_0010_0100 = .ok (.addVxVy 1 2) ∧ decodeWord 0b1000_0001_0010_0101 = .ok (.sub 1 2) ∧
      decodeWord 0b1000_0100_1111_0110 = .ok (.shr 4 15) ∧ decodeWord 0b1000_0001_0010_0111 = .ok (.subn 1 2) ∧
      decodeWord 0b1000_0100_1111_1110 = .ok (.shl 4 15) := by decide

theorem test_decode_single :
    decodeWord 0b1110_0010_1001_1110 = .ok (.skp 2) ∧ decodeWord 0b1110_0010_1010_0001 = .ok (.sknp 2) ∧
      decodeWord 0b1111_0011_0000_0111 = .ok (.ldVxDt 3) ∧ decodeWord 0b1111_0101_0000_1010 = .ok (.ldVxK 5) ∧
      decodeWord 0b1111_0001_0001_0101 = .ok (.ldDtVx 1) ∧ decodeWord 0b1111_0001_0001_1000 = .ok (.ldStVx 1) ∧
      decodeWord 0b1111_0010_0001_1110 = .ok (.addIVx 2) ∧ decodeWord 0b1111_0001_0010_1001 = .ok (.ldFVx 1) ∧
      decodeWord 0b1111_1010_0011_0011 = .ok (.ldBVx 10) ∧ decodeWord 0b1111_0010_0101_0101 = .ok (.ldMemVx 2) ∧
      decodeWord 0b1111_0010_0110_0101 = .ok (.ldVxMem 2) := by decide

/-- ST2 to ST7 of 95_test_vectors.md L2.1: unmapped words, each under its own name. -/
theorem test_decode_unmapped :
    decodeWord 0x0000 = .error (.unmapped 0x0000) ∧ decodeWord 0x0123 = .error (.unmapped 0x0123) ∧
      decodeWord 0x00E1 = .error (.unmapped 0x00E1) ∧ decodeWord 0x8008 = .error (.unmapped 0x8008) ∧
      decodeWord 0xE000 = .error (.unmapped 0xE000) ∧ decodeWord 0xF000 = .error (.unmapped 0xF000) := by decide

theorem test_decodeTableWord : decodeTableWord 16 0x8014 = some (.addVxVy 0 1) ∧ decodeTableWord 16 0x0001 = none := by
  decide

theorem test_decodeBytes_truncated : decodeBytes [0x12] = .error (.truncated [0x12]) := by decide

/-! ### WellFormed: an ill-formed term for each check -/

theorem test_wf_table : OpcodeTableWf opcodeTable := by decide

/-- A pattern with a bit outside its mask: no word would match it. -/
theorem test_wf_row_refused : OpcodeRow.wf ⟨"BAD", 0x8014, 0xF00F, .XYS⟩ = false := by decide

/-- The row of 8XY4 beside one that takes every word of category 8. -/
theorem test_wf_overlap_refused :
    ¬ OpcodeTableWf [⟨"ADD_VX_VY", 0x8004, 0xF00F, .XYS⟩, ⟨"BAD", 0x8000, 0xF000, .XY⟩] := by decide

theorem test_wf_spelling_refused :
    Instr.canonical (.seVxVy 1 2 7) = false ∧ Instr.canonical (.sneVxVy 1 2 1) = false ∧
      Instr.canonical (.seVxVy 1 2 0) = true := by decide

theorem test_wf_image_refused :
    imageFits (List.replicate 3585 0) = false ∧ imageFits (List.replicate 3584 0) = true := by
  unfold imageFits
  rw [List.length_replicate, List.length_replicate]
  decide

/-! ### One step -/

/-- The state after one step on the word `w`, from `s`. -/
def after (s : State) (w : Nat) : State := (Result.state? (step (s.withFetchWord 16 w))).getD s

/-- The state with some general registers set. -/
def withRegs (s : State) (rs : List (Reg × Byte)) : State := rs.foldl (fun t r => t.setReg r.1 r.2) s

/-- The reset state under other policies. -/
def underPolicies (o : OorPolicy) (k : StackPolicy) : State :=
  State.resetWith { defaultParams with oorPolicy := o, stackPolicy := k }

/-- ST1, with the big-endian fetch. -/
theorem test_fetch_bigEndian :
    Result.state? (step ((State.reset.writeByte 0x200 0x12).writeByte 0x201 0x34)) =
      some { (State.reset.writeByte 0x200 0x12).writeByte 0x201 0x34 with pc := 0x234 } := by decide

/-- ST9: the fetch raises at its second byte; `pc` stays. -/
theorem test_fetch_outOfRange :
    Result.state? (step (State.reset.setPc 0xFFF)) = some { State.reset with
      pc := 0xFFF
      halted := some (.outOfRangeAccess .fetch 0x1000 0xFFF)
      status := .condition (.outOfRangeAccess .fetch 0x1000 0xFFF) } := by decide

/-- ST10: the same fetch under Mask wraps to address 0. -/
theorem test_fetch_mask :
    (after ((underPolicies .mask .fatal).setPc 0xFFF) 0x1200).pc = 0x200 ∧
      ((underPolicies .mask .fatal).setPc 0xFFF).withFetchWord 16 0x1200 =
        { (underPolicies .mask .fatal).setPc 0xFFF with mem := [(0xFFF, 0x12)] } := by decide

/-- ST2. -/
theorem test_step_unknown :
    Result.state? (step State.reset) =
      some { State.reset with pc := 0x202, status := .unknownInstruction 0x0000 0x200 } := by decide

/-- DP14. -/
theorem test_cls : Display.cell (after (State.reset.setFb (Display.setCell Display.blank 63 31 true)) 0x00E0).fb 63 31 =
    false := by decide

/-- CF4 and CF7. -/
theorem test_ret :
    (after { State.reset with pc := 0x300, stack := (Vector.replicate 64 0).set 0 0x204, SP := 1 } 0x00EE).pc = 0x204 ∧
      (after State.reset 0x00EE).halted = some (.stackUnderflow 0x200) := by decide

/-- CF8. -/
theorem test_ret_clamp :
    (after (underPolicies .report .clampContinue) 0x00EE).status = .condition (.stackUnderflow 0x200) ∧
      (after (underPolicies .report .clampContinue) 0x00EE).halted = none := by decide

/-- CF1. -/
theorem test_jp : (after State.reset 0x1228).pc = 0x228 := by decide

/-- CF3 and CF5. -/
theorem test_call :
    (after { State.reset with pc := 0x202 } 0x2300).stack[0] = 0x204 ∧
      (after { State.reset with SP := 64 } 0x2300).halted = some (.stackOverflow 0x200) := by decide

/-- CF6: nothing is pushed, and the jump is made all the same. -/
theorem test_call_clamp :
    (after { underPolicies .report .clampContinue with SP := 64 } 0x2300).pc = 0x300 ∧
      (after { underPolicies .report .clampContinue with SP := 64 } 0x2300).SP = 64 := by decide

/-- CF10 and CF11. -/
theorem test_seVxNn :
    (after (withRegs State.reset [(3, 0x42)]) 0x3342).pc = 0x204 ∧
      (after (withRegs State.reset [(3, 0x41)]) 0x3342).pc = 0x202 := by decide

/-- CF12 and CF13. -/
theorem test_sneVxNn :
    (after (withRegs State.reset [(3, 0x41)]) 0x4342).pc = 0x204 ∧
      (after (withRegs State.reset [(3, 0x42)]) 0x4342).pc = 0x202 := by decide

/-- CF16 and CF17. -/
theorem test_seVxVy :
    (after (withRegs State.reset [(1, 7), (2, 7)]) 0x5127).pc = 0x204 ∧
      (after (withRegs State.reset [(1, 7), (2, 8)]) 0x5120).pc = 0x202 := by decide

/-- CF19 and CF20. -/
theorem test_sneVxVy :
    (after (withRegs State.reset [(1, 7), (2, 8)]) 0x9120).pc = 0x204 ∧ (after State.reset 0x9110).pc = 0x202 := by
  decide

/-- CF22 and CF23. -/
theorem test_jpV0 :
    (after (withRegs State.reset [(0, 0xFF)]) 0xBF01).pc = 0x1000 ∧
      (after (withRegs State.reset [(0, 0x01), (5, 0x80)]) 0xB500).pc = 0x501 := by decide

/-- AL2. -/
theorem test_ldVxNn : (after State.reset 0x6FAB).reg VF = 0xAB := by decide

/-- AL3: no carry. -/
theorem test_addVxNn :
    (after (withRegs State.reset [(2, 0xF0), (15, 0x55)]) 0x7220).reg 2 = 0x10 ∧
      (after (withRegs State.reset [(2, 0xF0), (15, 0x55)]) 0x7220).reg VF = 0x55 := by decide

/-- AL6. -/
theorem test_ldVxVy : (after (withRegs State.reset [(1, 0x33)]) 0x8010).reg 0 = 0x33 := by decide

/-- AL8: VF is kept. -/
theorem test_or :
    (after (withRegs State.reset [(0, 0x0F), (1, 0xF0), (15, 0x77)]) 0x8011).reg 0 = 0xFF ∧
      (after (withRegs State.reset [(0, 0x0F), (1, 0xF0), (15, 0x77)]) 0x8011).reg VF = 0x77 := by decide

/-- AL9. -/
theorem test_and : (after (withRegs State.reset [(0, 0x3C), (1, 0x0F)]) 0x8012).reg 0 = 0x0C := by decide

/-- AL10. -/
theorem test_xor : (after (withRegs State.reset [(0, 0xFF), (1, 0x0F)]) 0x8013).reg 0 = 0xF0 := by decide

/-- AL14 and AL15: the sums 255 and 256. -/
theorem test_addVxVy_carry :
    (after (withRegs State.reset [(0, 0x80), (1, 0x7F)]) 0x8014).reg VF = 0 ∧
      (after (withRegs State.reset [(0, 0x80), (1, 0x80)]) 0x8014).reg VF = 1 := by decide

/-- AL18 and AL20: VF as the destination takes the flag; VF as the source gives its old value. -/
theorem test_addVxVy_vf :
    (after (withRegs State.reset [(15, 0xFF), (1, 0x01)]) 0x8F14).reg VF = 1 ∧
      (after (withRegs State.reset [(0, 0x01), (15, 0x01)]) 0x80F4).reg 0 = 2 := by decide

/-- AL21 and AL23. -/
theorem test_sub :
    (after (withRegs State.reset [(0, 0x05), (1, 0x0A)]) 0x8015).reg 0 = 0xFB ∧
      (after (withRegs State.reset [(0, 0x07), (1, 0x07)]) 0x8015).reg VF = 1 := by decide

/-- AL31 and AL33: Y is ignored; VF as the destination takes the flag. -/
theorem test_shr :
    (after (withRegs State.reset [(4, 0x05)]) 0x84F6).reg 4 = 2 ∧
      (after (withRegs State.reset [(15, 0x02)]) 0x8F06).reg VF = 0 := by decide

/-- AL34 and AL35. -/
theorem test_subn :
    (after (withRegs State.reset [(0, 0x05), (1, 0x0A)]) 0x8017).reg VF = 1 ∧
      (after (withRegs State.reset [(0, 0x0A), (1, 0x05)]) 0x8017).reg 0 = 0xFB := by decide

/-- AL37 and AL38. -/
theorem test_shl :
    (after (withRegs State.reset [(4, 0x81)]) 0x840E).reg 4 = 2 ∧
      (after (withRegs State.reset [(4, 0x40)]) 0x840E).reg VF = 0 := by decide

/-- RN1 and RN4: the effect of a draw on the random byte given. -/
theorem test_rnd :
    (State.reset.rndWith 0xA7 3 0x0F).reg 3 = 0x07 ∧ (State.reset.rndWith 0xFF 15 0x80).reg VF = 0x80 := by decide

/-- MM2. -/
theorem test_ldI : (after State.reset 0xAFFF).I = 0xFFF := by decide

/-- MM4 and MM5. -/
theorem test_addIVx :
    (after (withRegs (State.reset.setI 0xFFF) [(0, 1)]) 0xF01E).I = 0x1000 ∧
      (after (withRegs (State.reset.setI 0xFFFF) [(0, 1)]) 0xF01E).I = 0 := by decide

/-- MM6 and MM10. -/
theorem test_ldFVx :
    (after (withRegs State.reset [(1, 0x0A)]) 0xF129).I = 0x082 ∧
      (after (withRegs State.reset [(1, 0xFF)]) 0xF129).I = 0x54B := by decide

/-- MM11. -/
theorem test_ldBVx :
    (after (withRegs (State.reset.setI 0x300) [(5, 0x9C)]) 0xF533).readBytes [0x300, 0x301, 0x302] = [1, 5, 6] := by
  decide

/-- MM15 and MM16: two policies at the end of memory. -/
theorem test_ldBVx_edge :
    (after (withRegs (State.reset.setI 0xFFE) [(5, 0xFF)]) 0xF533).halted =
        some (.outOfRangeAccess .data 0x1000 0x200) ∧
      (after (withRegs ((underPolicies .mask .fatal).setI 0xFFE) [(5, 0xFF)]) 0xF533).readBytes [0xFFE, 0xFFF, 0] =
        [2, 5, 5] := by decide

/-- MM17. -/
theorem test_ldMemVx :
    (after (withRegs (State.reset.setI 0x300) [(0, 1), (1, 2), (2, 3)]) 0xF255).readBytes [0x300, 0x301, 0x302, 0x303] =
      [1, 2, 3, 0] := by decide

/-- MM24: the font is not protected. -/
theorem test_ldMemVx_font :
    (after (withRegs (State.reset.setI 0x050) [(0, 0xFF)]) 0xF055).readBytes [0x050, 0x051] = [0xFF, 0x90] := by decide

/-- MM21. -/
theorem test_ldVxMem :
    (after ((State.reset.setI 0x300).writeBytes [0x300, 0x301, 0x302, 0x303] [0x0A, 0x0B, 0x0C, 0x0D]) 0xF265).regsUpTo
      3 = [0x0A, 0x0B, 0x0C, 0] := by decide

/-- DP1: the third row of glyph 0, and VF. -/
theorem test_drw :
    ((List.range 6).map fun x => Display.cell (after (State.reset.setI 0x050) 0xD015).fb x 2) =
        [true, false, false, true, false, false] ∧
      (after (State.reset.setI 0x050) 0xD015).reg VF = 0 := by decide

/-- DP6 and DP10: the bottom edge, and a collision. -/
theorem test_drw_edge :
    Display.cell (after (withRegs ((State.reset.setI 0x300).writeBytes [0x300, 0x301, 0x302] [0x80, 0x80, 0x80])
        [(1, 30)]) 0xD013).fb 0 0 = false ∧
      (after (((State.reset.setI 0x300).writeByte 0x300 0x80).setFb (Display.setCell Display.blank 0 0 true))
        0xD011).reg VF = 1 := by decide

/-- IT1 and IT5. -/
theorem test_skp :
    (after (withRegs (State.reset.setInput 0x0020) [(2, 5)]) 0xE29E).pc = 0x204 ∧
      (after (withRegs State.reset [(2, 0x10)]) 0xE29E).halted =
        some (.outOfRangeAccess .keypad 0x10 0x200) := by decide

/-- IT3 and IT4. -/
theorem test_sknp :
    (after (withRegs State.reset [(2, 5)]) 0xE2A1).pc = 0x204 ∧
      (after (withRegs (State.reset.setInput 0x0020) [(2, 5)]) 0xE2A1).pc = 0x202 := by decide

/-- IT7. -/
theorem test_ldVxK_waits : (after (State.reset.setPc 0x300) 0xF50A).pc = 0x300 := by decide

/-- IT8: keys 3 and 9. -/
theorem test_ldVxK_lowest :
    (after ((State.reset.setPc 0x300).setInput 0x0208) 0xF50A).reg 5 = 3 ∧
      (after ((State.reset.setPc 0x300).setInput 0x0208) 0xF50A).pc = 0x302 := by decide

/-- IT11. -/
theorem test_ldVxDt : (after (State.reset.setDT 0x20) 0xF307).reg 3 = 0x20 := by decide

/-- IT12. -/
theorem test_ldDtVx : (after (withRegs State.reset [(1, 3)]) 0xF115).DT = 3 := by decide

/-- IT14. -/
theorem test_ldStVx : (after (withRegs State.reset [(1, 0x10)]) 0xF118).soundTimerActive = true := by decide

/-! ### Transactions, font, images -/

/-- IT17, IT18 and IT20. -/
theorem test_tick_and_input :
    ((State.reset.setDT 5).setST 2).tickTimers = (State.reset.setDT 4).setST 1 ∧
      (State.reset.setST 1).tickTimers.soundTimerActive = false ∧
      lowestKey (State.reset.setInput 0x8000).key = some 15 := by decide

/-- CF7, traced (R80): the changes are those of pc and of the latch, and no general register. -/
theorem test_trace_latch :
    (traceRecord (State.reset.withFetchWord 16 0x00EE) (after State.reset 0x00EE)).registers = [] ∧
      (traceRecord (State.reset.withFetchWord 16 0x00EE) (after State.reset 0x00EE)).specials =
        [⟨.pc, .number 0x200, .number 0x202⟩,
          ⟨.halted, .latch none, .latch (some (.stackUnderflow 0x200))⟩] := by decide

/-- The codes of 60_exceptions.md section 1. -/
theorem test_codes :
    Status.code .ok = 0 ∧ Status.code (.unknownInstruction 0 0) = 1 ∧ Status.code (.condition (.stackOverflow 0)) = 2 ∧
      Status.code (.condition (.stackUnderflow 0)) = 3 ∧
      Status.code (.condition (.outOfRangeAccess .data 0x1000 0)) = 4 ∧ LoadStatus.code (.loadError 3585) = 5 ∧
      Status.code (.halted (.stackUnderflow 0)) = 6 := by decide

/-- The image of program P2 of 95_test_vectors.md L3. -/
theorem test_assemble :
    assemble [.code (.ldVxNn 10 0x9C), .code (.ldI 0x300), .codeAt .call "bcd", .code (.ldVxMem 2), .code (.ldI 0x310),
        .code (.ldMemVx 2), .label "done", .codeAt .jp "done", .label "bcd", .code (.ldBVx 10), .code .ret] =
      some [0x6A, 0x9C, 0xA3, 0x00, 0x22, 0x0E, 0xF2, 0x65, 0xA3, 0x10, 0xF2, 0x55, 0x12, 0x0C, 0xFA, 0x33, 0x00,
        0xEE] := by decide

/-- The texts of three lines of the same program. -/
theorem test_instrText :
    instrText (.ldVxMem 2) = "LD V2, [I]" ∧ instrText (.ldI 0x310) = "LD I, 0x310" ∧
      instrText (.ldVxNn 10 0x9C) = "LD VA, 0x9C" := by decide

/-! ### Witnesses: a state and operands that meet the hypotheses of each statement, clause by clause -/

/-- The reset state with `I` at `a`. -/
def withI (a : Word) : State := State.reset.setI a
/-- The same under Mask. -/
def withIMasked (a : Word) : State := (underPolicies .mask .fatal).setI a

theorem witness_EncodeOfDecode : decodeWord 0x9127 = .ok (.sneVxVy 1 2 7) := by decide

theorem witness_OpcodeMapSelectsInstruction :
    (⟨"SE_VX_VY", 0x5000, 0xF000, .XY⟩ : OpcodeRow) ∈ opcodeTable ∧ (0x5127 : Word) &&& 0xF000 = 0x5000 := by decide

/-- The edges of each of the four ranges of unmapped words. -/
theorem witness_UnmappedWordsExactly :
    decodeWord 0x00EF = .error (.unmapped 0x00EF) ∧ decodeWord 0x0FFF = .error (.unmapped 0x0FFF) ∧
      decodeWord 0x8FFF = .error (.unmapped 0x8FFF) ∧ decodeWord 0x8008 = .error (.unmapped 0x8008) ∧
      decodeWord 0xE09D = .error (.unmapped 0xE09D) ∧ decodeWord 0xFF66 = .error (.unmapped 0xFF66) := by decide

/-- The last `pc` that fetches under Report, and one above memory under Mask. -/
theorem witness_StepRunsDecodedInstruction :
    (∃ s : State, s.halted = none ∧ s.pc.toNat + 1 = 4095 ∧
      decodeBytes [s.readByte (s.pc.toNat % 4096), s.readByte ((s.pc.toNat + 1) % 4096)] = .ok (.cls, [])) ∧
    ∃ s : State, s.halted = none ∧ s.params.oorPolicy = .mask ∧ s.pc.toNat = 65535 ∧
      decodeBytes [s.readByte (s.pc.toNat % 4096), s.readByte ((s.pc.toNat + 1) % 4096)] = .ok (.cls, []) :=
  ⟨⟨(State.reset.setPc 0xFFE).writeByte 0xFFF 0xE0, by decide⟩,
    ⟨(((underPolicies .mask .fatal).setPc 0xFFFF).writeByte 0 0xE0), by decide⟩⟩

theorem witness_UnmappedWordIsPassedOver :
    State.reset.halted = none ∧ State.reset.fetch = .ok 0x0000 ∧ decodeWord 0x0000 = .error (.unmapped 0x0000) := by
  decide

theorem witness_FetchIsBigEndian : ((State.reset.setPc 0xFFE).writeByte 0xFFE 0x12).fetch = .ok 0x1200 := by decide

/-- The three places where a fetch can first fail: its second byte, its first byte, and far above. -/
theorem witness_FetchOutOfRangeIsLatched :
    (State.reset.halted = none ∧ State.reset.params.oorPolicy = .report) ∧ LeastOffset 0xFFF 2 1 ∧
      LeastOffset 0x1000 2 0 ∧ LeastOffset 0xFFFF 2 0 :=
  ⟨by decide, ⟨by decide, by decide, by decide⟩, ⟨by decide, by decide, fun j h => absurd h (by omega)⟩,
    ⟨by decide, by decide, fun j h => absurd h (by omega)⟩⟩

/-- A machine that a RET with an empty call stack has halted. -/
theorem witness_HaltedStepChangesNothing : (after State.reset 0x00EE).halted = some (.stackUnderflow 0x200) := by decide

/-- A step for each of the four ways in which the status can come about. -/
theorem witness_StatusComesFromItsInstruction :
    (after State.reset 0x00E0).status = .ok ∧
      Result.state? (step (State.reset.setPc 0x1000)) =
        some ((State.reset.setPc 0x1000).raise (.outOfRangeAccess .fetch 0x1000 0x1000)) ∧
      (after State.reset 0x0000).status = .unknownInstruction 0x0000 0x200 ∧
      (after State.reset 0x00EE).status = .condition (.stackUnderflow 0x200) := by decide

/-- A condition of the fetch, and one of an instruction. -/
theorem witness_FatalConditionIsPrecise :
    (∃ t, step (State.reset.setPc 0x1000) = .next t ∧ t.halted = some (.outOfRangeAccess .fetch 0x1000 0x1000)) ∧
      ∃ t, step (State.reset.withFetchWord 16 0x00EE) = .next t ∧ t.halted = some (.stackUnderflow 0x200) :=
  ⟨⟨_, step_fetch_error (c := .outOfRangeAccess .fetch 0x1000 0x1000) rfl (by decide), rfl⟩,
    ⟨_, step_exec (i := .ret) rfl (State.fetch_withFetchWord _ _ _).1 (by decide), rfl⟩⟩

theorem witness_OnlyInitializeClearsTheLatch :
    Transaction.init ∉ [.step true, .load [0x12, 0x00], .tickTimers, .setInput 1, .displaySnapshot, .soundTimerActive] ∧
      (State.reset.raise (.stackUnderflow 0x200)).halted = some (.stackUnderflow 0x200) := by decide

/-- Depths 1 and 64 for a RET that pops, and 0 under each policy. -/
theorem witness_RetPopsReturnAddress :
    0 < ({ State.reset with SP := 1 } : State).SP.val ∧ 0 < ({ State.reset with SP := 64 } : State).SP.val ∧
      State.reset.SP.val = 0 ∧ State.reset.params.stackPolicy = .fatal ∧
      (underPolicies .report .clampContinue).SP.val = 0 ∧
      (underPolicies .report .clampContinue).params.stackPolicy = .clampContinue := by decide

/-- Depths 0 and 63 for a CALL that pushes, and 64 under each policy. -/
theorem witness_CallPushesReturnAddress :
    State.reset.SP.val < 64 ∧ ({ State.reset with SP := 63 } : State).SP.val < 64 ∧
      ({ State.reset with SP := 64 } : State).SP.val = 64 ∧ State.reset.params.stackPolicy = .fatal ∧
      ({ underPolicies .report .clampContinue with SP := 64 } : State).SP.val = 64 ∧
      (underPolicies .report .clampContinue).params.stackPolicy = .clampContinue := by decide

/-- A CALL at depth 63, and the state after it at another `pc`. -/
theorem witness_CallThenRetReturns : ∃ s t u : State, s.SP.val = 63 ∧ exec (.call 0x300) s = .next t ∧
    u = t.setPc 0x302 ∧ u.stack = t.stack ∧ u.SP = t.SP :=
  ⟨{ State.reset with SP := 63 }, _, _, rfl, rfl, rfl, rfl, rfl⟩

/-- The destination that the flag leaves alone. -/
theorem witness_AddSetsCarry : (14 : Reg) ≠ VF := by decide
theorem witness_SubtractionsSetNoBorrow : (0 : Reg) ≠ VF := by decide
theorem witness_ShiftsSetShiftedOutBit : (4 : Reg) ≠ VF := by decide
theorem witness_RandomByteIsMasked : ((0x00 : Byte) = 0) ∧ (0x0F : Byte) ≠ 0 := by decide

/-- The last `I` that fits, the first that does not, and the largest, for three bytes. -/
theorem witness_BcdStoresDigits :
    DataInRange (withI 0xFFD) 3 ∧ DataInRange (withIMasked 0xFFFF) 3 ∧ (withI 0xFFE).params.oorPolicy = .report ∧
      LeastOffset (withI 0xFFE).I.toNat 3 2 ∧ LeastOffset (withI 0xFFFF).I.toNat 3 0 :=
  ⟨.inr (.inr (by decide)), .inl rfl, rfl, ⟨by decide, by decide, by decide⟩,
    ⟨by decide, by decide, fun j h => absurd h (by omega)⟩⟩

/-- Sixteen bytes that end at the last address, and the same one byte higher. -/
theorem witness_BlockStoreWritesMemory :
    DataInRange (withI 0xFF0) ((15 : Reg).val + 1) ∧ DataInRange (withIMasked 0xFFFF) ((15 : Reg).val + 1) ∧
      (withI 0xFF1).params.oorPolicy = .report ∧ LeastOffset (withI 0xFF1).I.toNat ((15 : Reg).val + 1) 15 :=
  ⟨.inr (.inr (by decide)), .inl rfl, rfl, ⟨by decide, by decide, by decide⟩⟩

theorem witness_BlockLoadReadsMemory :
    DataInRange (withI 0xFFF) ((0 : Reg).val + 1) ∧ DataInRange (withIMasked 0x1000) ((15 : Reg).val + 1) ∧
      (withI 0x1000).params.oorPolicy = .report ∧ LeastOffset (withI 0x1000).I.toNat ((0 : Reg).val + 1) 0 :=
  ⟨.inr (.inr (by decide)), .inl rfl, rfl, ⟨by decide, by decide, fun j h => absurd h (by omega)⟩⟩

/-- One drawn row at the last address; no row at all, wherever `I` is; and two rows of which the second is out of range.
The sprite byte 80H collides with a cell that is on, and with no cell of a blank display. -/
theorem witness_DrawXorsClippedSprite :
    DataInRange (withI 0xFFF) (min (5 : Nibble).toNat (32 - 31)) ∧ DataInRange (withI 0xFFFF) (min (0 : Nibble).toNat 32) ∧
      DataInRange (withIMasked 0xFFFF) (min (15 : Nibble).toNat 32) ∧
      ((withI 0xFFF).params.oorPolicy = .report ∧ LeastOffset (withI 0xFFF).I.toNat (min (2 : Nibble).toNat 32) 1) ∧
      Collides (Display.setCell Display.blank 63 31 true) 63 31 [0x80] ∧ ¬ Collides Display.blank 63 31 [0x80] :=
  ⟨.inr (.inr (by decide)), .inr (.inl (by decide)), .inl rfl, ⟨rfl, ⟨by decide, by decide, by decide⟩⟩,
    ⟨63, 31, by decide, by decide, by decide, by decide⟩, by
      rintro ⟨i, j, -, -, -, h⟩
      rw [Display.cell_blank] at h
      cases h⟩

/-- An instruction that does not draw, a draw that changes a cell, a draw of a sprite with no 1 bit (the byte 0 that memory
holds at 0x300), and a draw after a CLS. -/
theorem witness_DisplayProperties :
    (Instr.ret ≠ .cls ∧ (∀ x y n, Instr.ret ≠ .drw x y n) ∧ ∃ t, exec .ret State.reset = .next t) ∧
      (∃ t, exec (.drw 0 1 5) (withI 0x050) = .next t ∧ Display.cell t.fb 0 0 ≠ Display.cell (withI 0x050).fb 0 0) ∧
      (DataInRange (withI 0x300) 1 ∧ (∀ i j, spriteBit 0 0 (spriteBytes (withI 0x300) 1) i j = false) ∧
        ∃ t, exec (.drw 0 1 1) (withI 0x300) = .next t) ∧
      ∃ t u, exec .cls (withI 0x050) = .next t ∧ exec (.drw 0 1 5) t = .next u := by
  refine ⟨⟨by decide, by simp, _, rfl⟩, ⟨_, rfl, by decide⟩, ⟨.inr (.inr (by decide)), fun i j => ?_, _, rfl⟩, _, _, rfl, rfl⟩
  have h : spriteBytes (withI 0x300) 1 = [0] := by decide
  rw [h]
  unfold spriteBit
  cases j - 0 <;> simp

theorem witness_DrawTwiceRestores : (0 : Reg) ≠ VF ∧ (1 : Reg) ≠ VF ∧
    5 = min (5 : Nibble).toNat (32 - ((withI 0x050).reg 1).toNat % 32) ∧ DataInRange (withI 0x050) 5 ∧
    ∃ t u, exec (.drw 0 1 5) (withI 0x050) = .next t ∧ exec (.drw 0 1 5) (t.setPc 0x202) = .next u :=
  ⟨by decide, by decide, by decide, .inr (.inr (by decide)), _, _, rfl, rfl⟩

/-- The registers 15 and 16 under Report, and 16 and 255 under Mask. -/
theorem witness_KeySkips :
    ((15 : Fin 16).val = (0x0F : Byte).toNat % 16 ∧ (0x0F : Byte).toNat < 16) ∧
      ((underPolicies .mask .fatal).params.oorPolicy = .mask ∧ (0 : Fin 16).val = (0x10 : Byte).toNat % 16 ∧
        (15 : Fin 16).val = (0xFF : Byte).toNat % 16) ∧
      State.reset.params.oorPolicy = .report ∧ 16 ≤ ((withRegs State.reset [(2, 0x10)]).reg 2).toNat := by decide

/-- Keys 0 and 15 alone, and no key. -/
theorem witness_KeyWaitTakesLowestKey :
    ((State.reset.setInput 0x8000).key[15] = true ∧
      ∀ j : Fin 16, j < 15 → (State.reset.setInput 0x8000).key[j.val] = false) ∧
    (State.reset.setInput 0x8001).key[0] = true ∧ ∀ k : Fin 16, State.reset.key[k.val] = false := by decide

theorem witness_KeyWaitIsIdempotent : WaitingForKey (State.reset.withFetchWord 16 0xF50A) :=
  ⟨rfl, 5, (State.fetch_withFetchWord _ _ _).1, by decide⟩

theorem witness_InstructionsChangeOnlyTheirWriteSet :
    ∃ t, exec (.ldMemVx 15) (withIMasked 0xFFF) = .next t := ⟨_, rfl⟩

theorem witness_OnlyFX07ReadsATimer :
    (∀ x, Instr.ldVxDt 3 ≠ .ldStVx x) ∧ (∃ t, exec (.ldVxDt 3) (State.reset.setST 7) = .next t) ∧
      (∀ x, Instr.ldStVx 3 ≠ .ldVxDt x) ∧ (∀ x, Instr.ldStVx 3 ≠ .ldDtVx x) ∧
      ∃ t, exec (.ldStVx 3) (State.reset.setDT 7) = .next t :=
  ⟨by simp, ⟨_, rfl⟩, by simp, by simp, ⟨_, rfl⟩⟩

theorem witness_OnlyCallAndRetSeeTheStack :
    Instr.ldVxMem 15 ≠ .ret ∧ (∀ nnn, Instr.ldVxMem 15 ≠ .call nnn) ∧
      ∃ t, exec (.ldVxMem 15) (withI 0x300) = .next t := ⟨by decide, by simp, _, rfl⟩

/-- Two machines at depth 1 whose entry 1 differs. -/
theorem witness_StaleEntriesAreNeverRead : ∃ s t s' : State, s ≠ t ∧ StaleEq s t ∧
    runSchedule [.step true, .tickTimers] s = .next s' :=
  ⟨{ State.reset with SP := 1 }, { State.reset with stack := (Vector.replicate 64 0).set 1 0xFFFF, SP := 1 }, _,
    by decide, ⟨rfl, by decide⟩, rfl⟩

/-- A state that meets the invariant with the latch set, and a step from it. -/
theorem witness_StepKeepsInvariant :
    Inv (State.reset.raise (.outOfRangeAccess .keypad 16 0x200)) ∧
      ∃ t, step (State.reset.raise (.outOfRangeAccess .keypad 16 0x200)) = .next t :=
  ⟨⟨by decide, fun c h => by cases h; exact ⟨rfl, le_rfl, by omega⟩⟩, _, rfl⟩

theorem witness_SchedulesKeepInvariant : Inv ((State.reset.writeByte 0x050 0xFF).writeByte 0x200 0x12) :=
  ⟨by decide, fun c h => by cases h⟩

/-- CF2: a jump to itself. -/
theorem witness_AtRestIsStable : AtRest (State.reset.withFetchWord 16 0x1200) :=
  ⟨rfl, 0x200, (State.fetch_withFetchWord _ _ _).1, by decide⟩

/-- The addresses 4095 and 4096, and the key values 15 and 16. -/
theorem witness_OutOfRangePolicy : 4095 < 4096 ∧ 4096 ≤ 4096 ∧ (15 : Fin 16).val = (15 : Byte).toNat % 16 ∧
    (15 : Byte).toNat < 16 ∧ (0 : Fin 16).val = (16 : Byte).toNat % 16 ∧ 16 ≤ (16 : Byte).toNat := by decide

/-- One memory reached by two orders of the same two writes. -/
theorem witness_CanonicalMemoriesAreEqual : ∃ m n : Memory,
    m = Memory.write defaultParams (Memory.write defaultParams [] 0x300 1) 0 2 ∧
      n = Memory.write defaultParams (Memory.write defaultParams [] 0 2) 0x300 1 ∧ Memory.wf defaultParams m ∧
      Memory.wf defaultParams n ∧ ∀ a, Memory.read defaultParams m a = Memory.read defaultParams n a :=
  ⟨_, _, rfl, rfl, by decide, by decide, fun a => by
    rw [Memory.read_write, Memory.read_write, Memory.read_write, Memory.read_write]
    split <;> split <;> first | rfl | omega⟩

theorem witness_StoredWordIsFetchedNext : 1 ≤ (1 : Reg).val ∧ (withI 0x200).I = (withI 0x200).pc ∧
    DataInRange (withI 0x200) ((1 : Reg).val + 1) := ⟨by decide, rfl, .inr (.inr (by decide))⟩

/-- The font's first and last place, and the bytes beside it. -/
theorem witness_ResetValues :
    defaultParams.fontBase.val + (79 : Fin 80).val = 0x09F ∧ 0x04F < defaultParams.fontBase.val ∧
      defaultParams.fontBase.val + 80 ≤ 0x0A0 := by decide

/-- LD1 to LD3: images of 0, 3584 and 3585 bytes. -/
theorem witness_LoadCopiesImage :
    ([] : List Byte).length ≤ 3584 ∧ (List.replicate 3584 (0xFF : Byte)).length ≤ 3584 ∧
      3584 < (List.replicate 3585 (0xFF : Byte)).length := by
  rw [List.length_replicate, List.length_replicate]; decide

theorem witness_BootPlacesProgram : (List.replicate 3584 (0xFF : Byte)).length ≤ 3584 := by
  rw [List.length_replicate]

/-- A step that fetches a word and changes a register, and one that sets the latch. -/
theorem witness_TraceIsOnlyAnOutput :
    (State.reset.withFetchWord 16 0x600A).halted = none ∧ (State.reset.withFetchWord 16 0x600A).fetch = .ok 0x600A ∧
      decodeWord 0x600A = .ok (.ldVxNn 0 0x0A) ∧
      (after State.reset 0x600A).reg 0 ≠ (State.reset.withFetchWord 16 0x600A).reg 0 ∧
      (State.reset.withFetchWord 16 0x00EE).halted = none ∧
      (after State.reset 0x00EE).halted = some (.stackUnderflow 0x200) := by decide

end Sys2Proof.Tests
end

section
namespace Sys2Proof.Machine

/-- Inversion of a fetch that succeeds: the one word that it can give (R49, R74). -/
theorem State.eq_wordOfBytes_of_fetch_ok {s : State} {w : Word} (h : s.fetch = .ok w) :
    w = wordOfBytes (s.readByte (s.pc.toNat % 4096)) (s.readByte ((s.pc.toNat + 1) % 4096)) := by
  rcases State.fetch_cases s with ⟨hok, _⟩ | ⟨herr, _, _⟩
  · exact Except.ok.inj (h.symm.trans hok)
  · rw [herr] at h
    cases h

/-- Settles O8: of the cases of a fetch only the word of the two bytes is a success, and `wordOfBytes` puts its first
byte in the high part. -/
theorem fetchIsBigEndian : Obligations.FetchIsBigEndian := by
  intro s w h
  rw [State.eq_wordOfBytes_of_fetch_ok h, wordOfBytes_toNat]

end Sys2Proof.Machine
end

section
namespace Sys2Proof.Machine

/-! ### The jumps (R82, R88) -/

@[simp] theorem zextNNN_toNat (nnn : Addr12) : (zextNNN nnn).toNat = nnn.toNat :=
  BitVec.toNat_setWidth_of_le (by decide)

@[simp] theorem zextByte_toNat (b : Byte) : (zextByte b).toNat = b.toNat :=
  BitVec.toNat_setWidth_of_le (by decide)

/-- The target of BNNN is at most 0x10FE, so the 16-bit sum does not wrap (R88). -/
theorem zextNNN_add_zextByte_toNat (nnn : Addr12) (b : Byte) :
    (zextNNN nnn + zextByte b).toNat = nnn.toNat + b.toNat := by
  have hn : nnn.toNat < 4096 := nnn.isLt
  have hb : b.toNat < 256 := b.isLt
  rw [BitVec.toNat_add, zextNNN_toNat, zextByte_toNat]
  exact Nat.mod_eq_of_lt (by omega)

theorem exec_jp (nnn : Addr12) (s : State) : exec (.jp nnn) s = .next (s.setPc (zextNNN nnn)) := rfl

theorem exec_jpV0 (nnn : Addr12) (s : State) :
    exec (.jpV0 nnn) s = .next (s.setPc (zextNNN nnn + zextByte (s.reg 0))) := rfl

theorem decodeWord_jp (nnn : Addr12) : decodeWord (BitVec.ofNat 16 (0x1000 + nnn.toNat)) = .ok (.jp nnn) := by
  rw [ofNat_wordA 0x1000 0x1 nnn rfl]
  exact (Laws.RoundTrip.jp nnn).1

theorem decodeWord_jpV0 (nnn : Addr12) : decodeWord (BitVec.ofNat 16 (0xB000 + nnn.toNat)) = .ok (.jpV0 nnn) := by
  rw [ofNat_wordA 0xB000 0xB nnn rfl]
  exact (Laws.RoundTrip.jpV0 nnn).1

/-- Settles O18: each jump is one write of `pc`, whose value is NNN, or the sum that cannot wrap. -/
theorem jumpsSetPc : Obligations.JumpsSetPc := by
  refine ⟨fun nnn => ⟨decodeWord_jp nnn, decodeWord_jpV0 nnn⟩, fun nnn s => ⟨?jp, ?jpV0⟩⟩
  case jp => exact ⟨_, exec_jp nnn s, zextNNN_toNat nnn, sameBut_setPc s _ _ _ List.mem_cons_self⟩
  case jpV0 =>
    exact ⟨_, exec_jpV0 nnn s, zextNNN_add_zextByte_toNat nnn (s.reg 0), sameBut_setPc s _ _ _ List.mem_cons_self⟩

/-! ### The immediate skips (R84, R85) -/

/-- Where a skip leaves `pc`, as a number: 2 further on mod 2^16 when its condition holds. -/
theorem State.pc_skipIf_toNat (s : State) (c : Bool) :
    (s.skipIf c).pc.toNat = if c then (s.pc.toNat + 2) % 65536 else s.pc.toNat := by
  rw [State.skipIf_eq, State.pc_setPc]
  cases c with
  | false => rfl
  | true => exact BitVec.toNat_add s.pc 2

theorem State.pc_skipIf_beq_toNat (s : State) (a b : Byte) :
    (s.skipIf (a == b)).pc.toNat = if a = b then (s.pc.toNat + 2) % 65536 else s.pc.toNat := by
  simp only [State.pc_skipIf_toNat, beq_iff_eq]

theorem State.pc_skipIf_bne_toNat (s : State) (a b : Byte) :
    (s.skipIf (a != b)).pc.toNat = if a = b then s.pc.toNat else (s.pc.toNat + 2) % 65536 := by
  simp only [State.pc_skipIf_toNat, bne_iff_ne, ne_eq, ite_not]

theorem exec_seVxNn (x : Reg) (nn : Byte) (s : State) :
    exec (.seVxNn x nn) s = .next (s.skipIf (s.reg x == nn)) := rfl

theorem exec_sneVxNn (x : Reg) (nn : Byte) (s : State) :
    exec (.sneVxNn x nn) s = .next (s.skipIf (s.reg x != nn)) := rfl

theorem decodeWord_seVxNn (x : Reg) (nn : Byte) :
    decodeWord (BitVec.ofNat 16 (0x3000 + x.val * 256 + nn.toNat)) = .ok (.seVxNn x nn) := by
  rw [ofNat_wordXK 0x3000 0x3 x nn rfl]
  exact (Laws.RoundTrip.seVxNn x nn).1

theorem decodeWord_sneVxNn (x : Reg) (nn : Byte) :
    decodeWord (BitVec.ofNat 16 (0x4000 + x.val * 256 + nn.toNat)) = .ok (.sneVxNn x nn) := by
  rw [ofNat_wordXK 0x4000 0x4 x nn rfl]
  exact (Laws.RoundTrip.sneVxNn x nn).1

/-- Settles O19: both instructions are `skipIf`, on the equality test and on its negation. -/
theorem immediateSkips : Obligations.ImmediateSkips := by
  refine ⟨fun x nn => ⟨decodeWord_seVxNn x nn, decodeWord_sneVxNn x nn⟩, fun x nn s => ⟨?se, ?sne⟩⟩
  case se =>
    exact ⟨_, exec_seVxNn x nn s, State.pc_skipIf_beq_toNat s _ nn, sameBut_skipIf s _ _ _ List.mem_cons_self⟩
  case sne =>
    exact ⟨_, exec_sneVxNn x nn s, State.pc_skipIf_bne_toNat s _ nn, sameBut_skipIf s _ _ _ List.mem_cons_self⟩

end Sys2Proof.Machine
end

section
namespace Sys2Proof.Machine

/-! ### The loads and the immediate addition (R91 to R93) -/

/-- The frame of an instruction that is one register write: that register, which may be VF, and nothing else. -/
theorem sameBut_setReg_onlyReg (s : State) (x : Reg) (b : Byte) : SameBut s (s.setReg x b) (onlyReg x) noBytes [] :=
  sameBut_setReg s x b (w := onlyReg x) rfl noBytes []

theorem exec_ldVxNn (x : Reg) (nn : Byte) (s : State) : exec (.ldVxNn x nn) s = .next (s.setReg x nn) := rfl

theorem exec_ldVxVy (x y : Reg) (s : State) : exec (.ldVxVy x y) s = .next (s.setReg x (s.reg y)) := rfl

theorem exec_addVxNn (x : Reg) (nn : Byte) (s : State) :
    exec (.addVxNn x nn) s = .next (s.setReg x (addResult (s.reg x) nn)) := rfl

theorem decodeWord_ldVxNn (x : Reg) (nn : Byte) :
    decodeWord (BitVec.ofNat 16 (0x6000 + x.val * 256 + nn.toNat)) = .ok (.ldVxNn x nn) := by
  rw [ofNat_wordXK 0x6000 0x6 x nn rfl]
  exact (Laws.RoundTrip.ldVxNn x nn).1

theorem decodeWord_ldVxVy (x y : Reg) :
    decodeWord (BitVec.ofNat 16 (0x8000 + x.val * 256 + y.val * 16)) = .ok (.ldVxVy x y) := by
  rw [ofNat_wordXYS 0x8000 0x8 x y 0x0 rfl]
  exact (Laws.RoundTrip.ldVxVy x y).1

theorem decodeWord_addVxNn (x : Reg) (nn : Byte) :
    decodeWord (BitVec.ofNat 16 (0x7000 + x.val * 256 + nn.toNat)) = .ok (.addVxNn x nn) := by
  rw [ofNat_wordXK 0x7000 0x7 x nn rfl]
  exact (Laws.RoundTrip.addVxNn x nn).1

/-- Settles O21: each load is one write of V[X], of the immediate or of the old V[Y]. -/
theorem registerLoads : Obligations.RegisterLoads := by
  refine ⟨decodeWord_ldVxNn, decodeWord_ldVxVy, fun x y nn s => ⟨?immediate, ?register⟩⟩
  case immediate => exact ⟨_, exec_ldVxNn x nn s, State.reg_setReg_same s x nn, sameBut_setReg_onlyReg s x nn⟩
  case register => exact ⟨_, exec_ldVxVy x y s, State.reg_setReg_same s x _, sameBut_setReg_onlyReg s x _⟩

/-- Settles O22: the addition is one write of V[X], so no carry reaches VF; the value written is the 8-bit sum. -/
theorem addImmediateWraps : Obligations.AddImmediateWraps := by
  refine ⟨decodeWord_addVxNn, fun x nn s => ⟨_, exec_addVxNn x nn s, ?sum, sameBut_setReg_onlyReg s x _⟩⟩
  case sum => rw [State.reg_setReg_same, addResult_toNat]

end Sys2Proof.Machine
end

section
namespace Sys2Proof.Machine

/-! ### The loads of the index register (R104, R106) -/

/-- The frame of an instruction that is one write of `I`: `I` and nothing else. -/
theorem sameBut_setI_only (s : State) (a : Word) : SameBut s (s.setI a) noRegs noBytes [.I] :=
  sameBut_setI s a noRegs noBytes List.mem_cons_self

/-- The glyph address of the full register is at most 432 + 255 * 5 = 1707, so 16 bits hold it (R106). -/
theorem State.glyphAddress_toNat (s : State) (x : Reg) :
    (BitVec.ofNat 16 (s.params.fontBase.val + (s.reg x).toNat * Config.glyphBytes)).toNat =
      s.params.fontBase.val + (s.reg x).toNat * 5 := by
  have hbase : s.params.fontBase.val < 433 := s.params.fontBase.isLt
  have hreg : (s.reg x).toNat < 256 := (s.reg x).isLt
  rw [BitVec.toNat_ofNat]
  exact Nat.mod_eq_of_lt (by simp only [Config.glyphBytes]; omega)

theorem exec_ldI (nnn : Addr12) (s : State) : exec (.ldI nnn) s = .next (s.setI (zextNNN nnn)) := rfl

theorem exec_ldFVx (x : Reg) (s : State) :
    exec (.ldFVx x) s =
      .next (s.setI (BitVec.ofNat 16 (s.params.fontBase.val + (s.reg x).toNat * Config.glyphBytes))) := rfl

theorem decodeWord_ldI (nnn : Addr12) : decodeWord (BitVec.ofNat 16 (0xA000 + nnn.toNat)) = .ok (.ldI nnn) := by
  rw [ofNat_wordA 0xA000 0xA nnn rfl]
  exact (Laws.RoundTrip.ldI nnn).1

theorem decodeWord_ldFVx (x : Reg) : decodeWord (BitVec.ofNat 16 (0xF029 + x.val * 256)) = .ok (.ldFVx x) := by
  rw [ofNat_wordXS 0xF029 0xF x 0x29 rfl]
  exact (Laws.RoundTrip.ldFVx x).1

/-- Settles O28: each load is one write of `I`, of NNN or of the glyph address, which fits in 16 bits for every font
base and every value of V[X]. -/
theorem indexLoads : Obligations.IndexLoads := by
  refine ⟨decodeWord_ldI, decodeWord_ldFVx, fun nnn x s => ⟨?ldI, ?ldFVx⟩⟩
  case ldI => exact ⟨_, exec_ldI nnn s, zextNNN_toNat nnn, sameBut_setI_only s _⟩
  case ldFVx => exact ⟨_, exec_ldFVx x s, State.glyphAddress_toNat s x, sameBut_setI_only s _⟩

end Sys2Proof.Machine
end

section
namespace Sys2Proof.Machine

/-! ### CLS (R110) -/

theorem exec_cls (s : State) : exec .cls s = .next (s.setFb Display.blank) := rfl

theorem decodeWord_cls : decodeWord 0x00E0 = .ok .cls := Laws.RoundTrip.cls.1

/-- A collision needs a cell that is on, and a blank display has none (R110). -/
theorem not_collides_blank (x0 y0 : Nat) (bytes : List Byte) : ¬ Collides Display.blank x0 y0 bytes := by
  rintro ⟨i, j, -, -, -, hon⟩
  rw [Display.cell_blank] at hon
  exact Bool.false_ne_true hon

/-- Settles O33: CLS is one write of the display, of the blank one, whose cells are all off. -/
theorem clearTurnsEveryCellOff : Obligations.ClearTurnsEveryCellOff := by
  refine ⟨decodeWord_cls, fun s => ⟨_, exec_cls s, ?off, ?noCollision, ?frame⟩⟩
  case off => exact fun x y _ _ => Display.cell_blank x y
  case noCollision => exact not_collides_blank
  case frame => exact sameBut_setFb s Display.blank noRegs noBytes List.mem_cons_self

end Sys2Proof.Machine
end

section
namespace Sys2Proof.Machine

/-! ### The timer moves (R116 to R118) -/

theorem sameBut_setDT (s : State) (b : Byte) (w : Reg → Prop) (m : Nat → Prop) {l : List Part}
    (hl : Part.DT ∈ l) : SameBut s (s.setDT b) w m l :=
  ⟨fun _ _ => rfl, fun _ _ => rfl, fun q hq => by cases q <;> simp_all [Part.same]⟩

theorem sameBut_setST (s : State) (b : Byte) (w : Reg → Prop) (m : Nat → Prop) {l : List Part}
    (hl : Part.ST ∈ l) : SameBut s (s.setST b) w m l :=
  ⟨fun _ _ => rfl, fun _ _ => rfl, fun q hq => by cases q <;> simp_all [Part.same]⟩

/-- The sound output follows a write of `ST` at once (R118, R131). -/
@[simp] theorem State.soundTimerActive_setST (s : State) (b : Byte) :
    (s.setST b).soundTimerActive = decide (0 < b.toNat) := rfl

theorem exec_ldVxDt (x : Reg) (s : State) : exec (.ldVxDt x) s = .next (s.setReg x s.DT) := rfl

theorem exec_ldDtVx (x : Reg) (s : State) : exec (.ldDtVx x) s = .next (s.setDT (s.reg x)) := rfl

theorem exec_ldStVx (x : Reg) (s : State) : exec (.ldStVx x) s = .next (s.setST (s.reg x)) := rfl

theorem decodeWord_ldVxDt (x : Reg) : decodeWord (BitVec.ofNat 16 (0xF007 + x.val * 256)) = .ok (.ldVxDt x) := by
  rw [ofNat_wordXS 0xF007 0xF x 0x07 rfl]
  exact (Laws.RoundTrip.ldVxDt x).1

theorem decodeWord_ldDtVx (x : Reg) : decodeWord (BitVec.ofNat 16 (0xF015 + x.val * 256)) = .ok (.ldDtVx x) := by
  rw [ofNat_wordXS 0xF015 0xF x 0x15 rfl]
  exact (Laws.RoundTrip.ldDtVx x).1

theorem decodeWord_ldStVx (x : Reg) : decodeWord (BitVec.ofNat 16 (0xF018 + x.val * 256)) = .ok (.ldStVx x) := by
  rw [ofNat_wordXS 0xF018 0xF x 0x18 rfl]
  exact (Laws.RoundTrip.ldStVx x).1

/-- Settles O39: each move is one write, of V[X], `DT` or `ST`, and the sound output is read off the `ST` written. -/
theorem timerMoves : Obligations.TimerMoves := by
  refine ⟨fun x => ⟨decodeWord_ldVxDt x, decodeWord_ldDtVx x, decodeWord_ldStVx x⟩,
    fun x s => ⟨?ldVxDt, ?ldDtVx, ?ldStVx⟩⟩
  case ldVxDt => exact ⟨_, exec_ldVxDt x s, State.reg_setReg_same s x _, sameBut_setReg_onlyReg s x _⟩
  case ldDtVx => exact ⟨_, exec_ldDtVx x s, State.DT_setDT s _, sameBut_setDT s _ _ _ List.mem_cons_self⟩
  case ldStVx =>
    exact ⟨_, exec_ldStVx x s, State.ST_setST s _, State.soundTimerActive_setST s _,
      sameBut_setST s _ _ _ List.mem_cons_self⟩

end Sys2Proof.Machine
end

section
namespace Sys2Proof.Machine

/-! ### The outputs of the driver (R129, R131) -/

theorem Display.cell_eq_getElem (d : Display) {x y : Nat} (hx : x < 64) (hy : y < 32) :
    Display.cell d x y = d[y][x] := by
  unfold Display.cell
  rw [Vector.getElem?_eq_getElem hy]
  simp [hx]

/-- The snapshot is the flat vector of the rows, whose length its type fixes at 32 * 64 = 2048. -/
theorem State.displaySnapshot_eq_flatten (s : State) : s.displaySnapshot = s.fb.flatten.toList := by
  change _ = (s.fb.toArray.map Vector.toArray).flatten.toList
  rw [Array.toList_flatten, Array.toList_map, List.map_map]
  rfl

@[simp] theorem State.length_displaySnapshot (s : State) : s.displaySnapshot.length = 2048 := by
  rw [State.displaySnapshot_eq_flatten, Vector.length_toList]

/-- Row-major order (R37): a row has 64 cells, so position `y * 64 + x` has row `y` as its quotient by 64 and column `x`
as its remainder. -/
theorem State.getD_displaySnapshot (s : State) {x y : Nat} (hx : x < 64) (hy : y < 32) :
    s.displaySnapshot.getD (y * 64 + x) false = Display.cell s.fb x y := by
  have hpos : y * 64 + x < 32 * 64 := by omega
  have hrow : (y * 64 + x) / 64 = y := by omega
  have hcol : (y * 64 + x) % 64 = x := by omega
  have hflat : s.fb.flatten[y * 64 + x] = s.fb[y][x] := by
    simp only [Vector.getElem_flatten, hrow, hcol]
  rw [State.displaySnapshot_eq_flatten, Display.cell_eq_getElem s.fb hx hy, ← hflat,
    List.getD_eq_getElem _ _ (by rwa [Vector.length_toList]), Vector.getElem_toList]

theorem State.soundTimerActive_eq (s : State) : s.soundTimerActive = decide (s.ST.toNat > 0) := rfl

/-- Settles O58: each transaction answers the state it found; the snapshot is the flat vector of the display's rows. -/
theorem readOutsChangeNothing : Obligations.ReadOutsChangeNothing := by
  refine fun s => ⟨⟨s.displaySnapshot, transact_displaySnapshot s, State.length_displaySnapshot s, ?cells⟩, ?sound⟩
  case cells => exact fun x y hx hy => State.getD_displaySnapshot s hx hy
  case sound => rw [transact_soundTimerActive, State.soundTimerActive_eq]

end Sys2Proof.Machine
end

section
namespace Sys2Proof.Machine

/-! ### The decoder, both ways (30_encoding.md sections 1 to 4) -/

/-- The lemma of each constructor, for every instruction. -/
theorem roundTrip : (i : Instr) → Laws.RoundTrip.Statement i
  | .cls => Laws.RoundTrip.cls
  | .ret => Laws.RoundTrip.ret
  | .jp nnn => Laws.RoundTrip.jp nnn
  | .call nnn => Laws.RoundTrip.call nnn
  | .seVxNn x nn => Laws.RoundTrip.seVxNn x nn
  | .sneVxNn x nn => Laws.RoundTrip.sneVxNn x nn
  | .seVxVy x y n => Laws.RoundTrip.seVxVy x y n
  | .ldVxNn x nn => Laws.RoundTrip.ldVxNn x nn
  | .addVxNn x nn => Laws.RoundTrip.addVxNn x nn
  | .ldVxVy x y => Laws.RoundTrip.ldVxVy x y
  | .or x y => Laws.RoundTrip.or x y
  | .and x y => Laws.RoundTrip.and x y
  | .xor x y => Laws.RoundTrip.xor x y
  | .addVxVy x y => Laws.RoundTrip.addVxVy x y
  | .sub x y => Laws.RoundTrip.sub x y
  | .shr x y => Laws.RoundTrip.shr x y
  | .subn x y => Laws.RoundTrip.subn x y
  | .shl x y => Laws.RoundTrip.shl x y
  | .sneVxVy x y n => Laws.RoundTrip.sneVxVy x y n
  | .ldI nnn => Laws.RoundTrip.ldI nnn
  | .jpV0 nnn => Laws.RoundTrip.jpV0 nnn
  | .rnd x nn => Laws.RoundTrip.rnd x nn
  | .drw x y n => Laws.RoundTrip.drw x y n
  | .skp x => Laws.RoundTrip.skp x
  | .sknp x => Laws.RoundTrip.sknp x
  | .ldVxDt x => Laws.RoundTrip.ldVxDt x
  | .ldVxK x => Laws.RoundTrip.ldVxK x
  | .ldDtVx x => Laws.RoundTrip.ldDtVx x
  | .ldStVx x => Laws.RoundTrip.ldStVx x
  | .addIVx x => Laws.RoundTrip.addIVx x
  | .ldFVx x => Laws.RoundTrip.ldFVx x
  | .ldBVx x => Laws.RoundTrip.ldBVx x
  | .ldMemVx x => Laws.RoundTrip.ldMemVx x
  | .ldVxMem x => Laws.RoundTrip.ldVxMem x

@[simp] theorem decodeWord_encode (i : Instr) : decodeWord (encode i) = .ok i := (roundTrip i).1

theorem encode_and_mask (i : Instr) : encode i &&& i.row.mask = i.row.pattern := (roundTrip i).2

/-- Settles O1: the word by the lemma of each constructor; the bytes because the two of a word put it together again. -/
theorem decodeOfEncode : Obligations.DecodeOfEncode := by
  refine ⟨decodeWord_encode, fun i rest => ?bytes⟩
  case bytes =>
    simp only [encodeBytes, List.cons_append, List.nil_append, decodeBytes, wordOfBytes_high_low, decodeWord_encode]
    rfl

/-! A word of a known category, and sub-selector where its format has one, is put together from its other fields. -/

theorem wordA_of_category {w : Word} (c : Nibble) (h : (fieldC w).toNat = c.toNat) : wordA c (fieldNNN w) = w := by
  rw [← BitVec.eq_of_toNat_eq h, wordA_fields]

theorem wordXK_of_category {w : Word} (c : Nibble) (h : (fieldC w).toNat = c.toNat) :
    wordXK c (fieldX w) (fieldNN w) = w := by
  rw [← BitVec.eq_of_toNat_eq h, wordXK_fields]

theorem wordXYN_of_category {w : Word} (c : Nibble) (h : (fieldC w).toNat = c.toNat) :
    wordXYN c (fieldX w) (fieldY w) (fieldN w) = w := by
  rw [← BitVec.eq_of_toNat_eq h, wordXYN_fields]

theorem wordXK_of_selector {w : Word} (c : Nibble) (nn : Byte) (h : (fieldC w).toNat = c.toNat)
    (hn : (fieldNN w).toNat = nn.toNat) : wordXK c (fieldX w) nn = w := by
  rw [← BitVec.eq_of_toNat_eq hn, wordXK_of_category c h]

theorem wordXYN_of_selector {w : Word} (c n : Nibble) (h : (fieldC w).toNat = c.toNat)
    (hn : (fieldN w).toNat = n.toNat) : wordXYN c (fieldX w) (fieldY w) n = w := by
  rw [← BitVec.eq_of_toNat_eq hn, wordXYN_of_category c h]

theorem encode_of_decode0 {w : Word} {i : Instr} (h : decode0 w = .ok i) : encode i = w := by
  unfold decode0 at h
  split at h
  · next hw => cases h; exact hw.symm
  · split at h
    · next hw => cases h; exact hw.symm
    · cases h

theorem encode_of_decode8 {w : Word} {i : Instr} (hc : (fieldC w).toNat = 0x8) (h : decode8 w = .ok i) :
    encode i = w := by
  unfold decode8 at h
  split at h
  case h_10 => cases h
  all_goals next hn => cases h; exact wordXYN_of_selector 0x8 _ hc hn

theorem encode_of_decodeE {w : Word} {i : Instr} (hc : (fieldC w).toNat = 0xE) (h : decodeE w = .ok i) :
    encode i = w := by
  unfold decodeE at h
  split at h
  case h_3 => cases h
  all_goals next hn => cases h; exact wordXK_of_selector 0xE _ hc hn

theorem encode_of_decodeF {w : Word} {i : Instr} (hc : (fieldC w).toNat = 0xF) (h : decodeF w = .ok i) :
    encode i = w := by
  unfold decodeF at h
  split at h
  case h_10 => cases h
  all_goals next hn => cases h; exact wordXK_of_selector 0xF _ hc hn

theorem encode_of_decodeWord {w : Word} {i : Instr} (h : decodeWord w = .ok i) : encode i = w := by
  unfold decodeWord at h
  split at h <;> rename_i hc
  · exact encode_of_decode0 h
  · cases h; exact wordA_of_category 0x1 hc
  · cases h; exact wordA_of_category 0x2 hc
  · cases h; exact wordXK_of_category 0x3 hc
  · cases h; exact wordXK_of_category 0x4 hc
  · cases h; exact wordXYN_of_category 0x5 hc
  · cases h; exact wordXK_of_category 0x6 hc
  · cases h; exact wordXK_of_category 0x7 hc
  · exact encode_of_decode8 hc h
  · cases h; exact wordXYN_of_category 0x9 hc
  · cases h; exact wordA_of_category 0xA hc
  · cases h; exact wordA_of_category 0xB hc
  · cases h; exact wordXK_of_category 0xC hc
  · cases h; exact wordXYN_of_category 0xD hc
  · exact encode_of_decodeE hc h
  · exact encode_of_decodeF hc h
  · cases h

/-- Settles O2: the decoder reads every field of the word into an operand or fixes it by the category and the
sub-selector, and a word is put together from its fields. -/
theorem encodeOfDecode : Obligations.EncodeOfDecode := fun _ _ h => encode_of_decodeWord h

/-! ### The opcode map (R66) -/

theorem row_mem_opcodeTable (i : Instr) : i.row ∈ opcodeTable := by
  cases i <;> simp [opcodeTable, Instr.samples, Instr.row]

/-! A word that matches a row's pattern under its mask is put together from the fields that the mask leaves free. -/

theorem fieldC_of_mask_F000 {w : Word} (c : Nibble) (h : w &&& 0xF000 = wordA c 0) : (fieldC w).toNat = c.toNat := by
  rw [and_mask_F000] at h
  simpa using congrArg (fun v => (fieldC v).toNat) h

theorem wordXYN_of_mask_F00F {w : Word} (c n : Nibble) (h : w &&& 0xF00F = wordXYN c 0 0 n) :
    wordXYN c (fieldX w) (fieldY w) n = w := by
  rw [and_mask_F00F] at h
  exact wordXYN_of_selector c n (by simpa using congrArg (fun v => (fieldC v).toNat) h)
    (by simpa using congrArg (fun v => (fieldN v).toNat) h)

theorem wordXK_of_mask_F0FF {w : Word} (c : Nibble) (nn : Byte) (h : w &&& 0xF0FF = wordXK c 0 nn) :
    wordXK c (fieldX w) nn = w := by
  rw [and_mask_F0FF] at h
  exact wordXK_of_selector c nn (by simpa using congrArg (fun v => (fieldC v).toNat) h)
    (by simpa using congrArg (fun v => (fieldNN v).toNat) h)

/-- A word that matches the row of `i` is the encoding of an instruction of that row. -/
theorem exists_encode_of_match (i : Instr) {w : Word} (h : w &&& i.row.mask = i.row.pattern) :
    ∃ j, encode j = w ∧ j.row = i.row := by
  cases i with
  | cls => exact ⟨.cls, h.symm.trans (and_mask_FFFF w), rfl⟩
  | ret => exact ⟨.ret, h.symm.trans (and_mask_FFFF w), rfl⟩
  | jp _ => exact ⟨.jp (fieldNNN w), wordA_of_category 0x1 (fieldC_of_mask_F000 0x1 h), rfl⟩
  | call _ => exact ⟨.call (fieldNNN w), wordA_of_category 0x2 (fieldC_of_mask_F000 0x2 h), rfl⟩
  | seVxNn _ _ => exact ⟨.seVxNn (fieldX w) (fieldNN w), wordXK_of_category 0x3 (fieldC_of_mask_F000 0x3 h), rfl⟩
  | sneVxNn _ _ => exact ⟨.sneVxNn (fieldX w) (fieldNN w), wordXK_of_category 0x4 (fieldC_of_mask_F000 0x4 h), rfl⟩
  | seVxVy _ _ _ =>
    exact ⟨.seVxVy (fieldX w) (fieldY w) (fieldN w), wordXYN_of_category 0x5 (fieldC_of_mask_F000 0x5 h), rfl⟩
  | ldVxNn _ _ => exact ⟨.ldVxNn (fieldX w) (fieldNN w), wordXK_of_category 0x6 (fieldC_of_mask_F000 0x6 h), rfl⟩
  | addVxNn _ _ => exact ⟨.addVxNn (fieldX w) (fieldNN w), wordXK_of_category 0x7 (fieldC_of_mask_F000 0x7 h), rfl⟩
  | ldVxVy _ _ => exact ⟨.ldVxVy (fieldX w) (fieldY w), wordXYN_of_mask_F00F 0x8 0x0 h, rfl⟩
  | or _ _ => exact ⟨.or (fieldX w) (fieldY w), wordXYN_of_mask_F00F 0x8 0x1 h, rfl⟩
  | and _ _ => exact ⟨.and (fieldX w) (fieldY w), wordXYN_of_mask_F00F 0x8 0x2 h, rfl⟩
  | xor _ _ => exact ⟨.xor (fieldX w) (fieldY w), wordXYN_of_mask_F00F 0x8 0x3 h, rfl⟩
  | addVxVy _ _ => exact ⟨.addVxVy (fieldX w) (fieldY w), wordXYN_of_mask_F00F 0x8 0x4 h, rfl⟩
  | sub _ _ => exact ⟨.sub (fieldX w) (fieldY w), wordXYN_of_mask_F00F 0x8 0x5 h, rfl⟩
  | shr _ _ => exact ⟨.shr (fieldX w) (fieldY w), wordXYN_of_mask_F00F 0x8 0x6 h, rfl⟩
  | subn _ _ => exact ⟨.subn (fieldX w) (fieldY w), wordXYN_of_mask_F00F 0x8 0x7 h, rfl⟩
  | shl _ _ => exact ⟨.shl (fieldX w) (fieldY w), wordXYN_of_mask_F00F 0x8 0xE h, rfl⟩
  | sneVxVy _ _ _ =>
    exact ⟨.sneVxVy (fieldX w) (fieldY w) (fieldN w), wordXYN_of_category 0x9 (fieldC_of_mask_F000 0x9 h), rfl⟩
  | ldI _ => exact ⟨.ldI (fieldNNN w), wordA_of_category 0xA (fieldC_of_mask_F000 0xA h), rfl⟩
  | jpV0 _ => exact ⟨.jpV0 (fieldNNN w), wordA_of_category 0xB (fieldC_of_mask_F000 0xB h), rfl⟩
  | rnd _ _ => exact ⟨.rnd (fieldX w) (fieldNN w), wordXK_of_category 0xC (fieldC_of_mask_F000 0xC h), rfl⟩
  | drw _ _ _ =>
    exact ⟨.drw (fieldX w) (fieldY w) (fieldN w), wordXYN_of_category 0xD (fieldC_of_mask_F000 0xD h), rfl⟩
  | skp _ => exact ⟨.skp (fieldX w), wordXK_of_mask_F0FF 0xE 0x9E h, rfl⟩
  | sknp _ => exact ⟨.sknp (fieldX w), wordXK_of_mask_F0FF 0xE 0xA1 h, rfl⟩
  | ldVxDt _ => exact ⟨.ldVxDt (fieldX w), wordXK_of_mask_F0FF 0xF 0x07 h, rfl⟩
  | ldVxK _ => exact ⟨.ldVxK (fieldX w), wordXK_of_mask_F0FF 0xF 0x0A h, rfl⟩
  | ldDtVx _ => exact ⟨.ldDtVx (fieldX w), wordXK_of_mask_F0FF 0xF 0x15 h, rfl⟩
  | ldStVx _ => exact ⟨.ldStVx (fieldX w), wordXK_of_mask_F0FF 0xF 0x18 h, rfl⟩
  | addIVx _ => exact ⟨.addIVx (fieldX w), wordXK_of_mask_F0FF 0xF 0x1E h, rfl⟩
  | ldFVx _ => exact ⟨.ldFVx (fieldX w), wordXK_of_mask_F0FF 0xF 0x29 h, rfl⟩
  | ldBVx _ => exact ⟨.ldBVx (fieldX w), wordXK_of_mask_F0FF 0xF 0x33 h, rfl⟩
  | ldMemVx _ => exact ⟨.ldMemVx (fieldX w), wordXK_of_mask_F0FF 0xF 0x55 h, rfl⟩
  | ldVxMem _ => exact ⟨.ldVxMem (fieldX w), wordXK_of_mask_F0FF 0xF 0x65 h, rfl⟩

/-- A word selects the row of `i` exactly when it decodes to an instruction of that row. -/
theorem match_iff_decodes (i : Instr) (w : Word) :
    w &&& i.row.mask = i.row.pattern ↔ ∃ j, decodeWord w = .ok j ∧ j.row = i.row := by
  constructor
  · intro h
    obtain ⟨j, rfl, hrow⟩ := exists_encode_of_match i h
    exact ⟨j, decodeWord_encode j, hrow⟩
  · rintro ⟨j, hj, hrow⟩
    rw [← encode_of_decodeWord hj, ← hrow]
    exact encode_and_mask j

theorem exists_row_of_mem {r : OpcodeRow} (h : r ∈ opcodeTable) : ∃ i : Instr, i.row = r := by
  obtain ⟨i, _, hi⟩ := List.mem_map.mp h
  exact ⟨i, hi⟩

/-- Settles O3: a word that matches a row is the encoding of an instruction of the row, so what it decodes to gives the
row back, and it matches no other. -/
theorem opcodeMapSelectsInstruction : Obligations.OpcodeMapSelectsInstruction := by
  refine ⟨rfl, fun w r hr => ?selects, fun w i _ => row_mem_opcodeTable i, fun w r q hr hq hwr hwq => ?unique⟩
  case selects =>
    obtain ⟨i, rfl⟩ := exists_row_of_mem hr
    exact match_iff_decodes i w
  case unique =>
    obtain ⟨i, rfl⟩ := exists_row_of_mem hr
    obtain ⟨j, rfl⟩ := exists_row_of_mem hq
    obtain ⟨i', hi', hri⟩ := (match_iff_decodes i w).mp hwr
    obtain ⟨j', hj', hrj⟩ := (match_iff_decodes j w).mp hwq
    rw [← hri, ← hrj, Except.ok.inj (hi'.symm.trans hj')]

/-! ### The unmapped words (R67) -/

theorem decode0_error {w : Word} {e : DecodeError} :
    decode0 w = .error e ↔ e = .unmapped w ∧ w ≠ 0x00E0 ∧ w ≠ 0x00EE := by
  unfold decode0
  split
  · next h => simp [h]
  · split
    · next h => simp [h]
    · next h h' => simp only [Except.error.injEq, ne_eq, h, h', not_false_eq_true, and_true, eq_comm]

theorem decode8_error {w : Word} {e : DecodeError} :
    decode8 w = .error e ↔ e = .unmapped w ∧ w.toNat % 16 ∈ [0x8, 0x9, 0xA, 0xB, 0xC, 0xD, 0xF] := by
  have hlt : w.toNat % 16 < 16 := Nat.mod_lt _ (by decide)
  unfold decode8
  rw [fieldN_toNat]
  generalize w.toNat % 16 = n at hlt ⊢
  interval_cases n <;> simp [eq_comm]

theorem decodeE_error {w : Word} {e : DecodeError} :
    decodeE w = .error e ↔ e = .unmapped w ∧ w.toNat % 256 ∉ [0x9E, 0xA1] := by
  unfold decodeE
  rw [fieldNN_toNat]
  split <;> simp_all [eq_comm]

theorem decodeF_error {w : Word} {e : DecodeError} :
    decodeF w = .error e ↔
      e = .unmapped w ∧ w.toNat % 256 ∉ [0x07, 0x0A, 0x15, 0x18, 0x1E, 0x29, 0x33, 0x55, 0x65] := by
  unfold decodeF
  rw [fieldNN_toNat]
  split <;> simp_all [eq_comm]

/-- The table of R67. -/
def UnmappedWord (w : Word) : Prop :=
  (w.toNat / 4096 = 0x0 ∧ w ≠ 0x00E0 ∧ w ≠ 0x00EE) ∨
    (w.toNat / 4096 = 0x8 ∧ w.toNat % 16 ∈ [0x8, 0x9, 0xA, 0xB, 0xC, 0xD, 0xF]) ∨
    (w.toNat / 4096 = 0xE ∧ w.toNat % 256 ∉ [0x9E, 0xA1]) ∨
    (w.toNat / 4096 = 0xF ∧ w.toNat % 256 ∉ [0x07, 0x0A, 0x15, 0x18, 0x1E, 0x29, 0x33, 0x55, 0x65])

/-- A word is rejected, under its own name, exactly when it is in the table: the category picks the range. -/
theorem decodeWord_error {w : Word} {e : DecodeError} :
    decodeWord w = .error e ↔ e = .unmapped w ∧ UnmappedWord w := by
  have hlt : w.toNat / 4096 < 16 := Nat.div_lt_of_lt_mul w.isLt
  unfold decodeWord UnmappedWord
  rw [fieldC_toNat]
  generalize w.toNat / 4096 = c at hlt ⊢
  interval_cases c <;> simp [decode0_error, decode8_error, decodeE_error, decodeF_error]

/-- Settles O4: each range of the table is where one sub-decoder rejects, and a rejection names the word. -/
theorem unmappedWordsExactly : Obligations.UnmappedWordsExactly := fun w =>
  ⟨fun _ he => (decodeWord_error.mp he).1,
    fun ⟨_, he⟩ => (decodeWord_error.mp he).2, fun h => ⟨.unmapped w, decodeWord_error.mpr ⟨rfl, h⟩⟩⟩

/-- Settles O5: each word by evaluation of the decoder. -/
theorem sampleWordsDecode : Obligations.SampleWordsDecode := by
  unfold Obligations.SampleWordsDecode
  decide

end Sys2Proof.Machine
end

section
namespace Sys2Proof.Machine

/-! ### What the checks of an execute phase can do -/

theorem State.checked_cases {α : Type} {s t : State} {e : Except Condition α} {run : α → State}
    (h : s.checked e run = .next t) : (∃ a, e = .ok a ∧ t = run a) ∨ ∃ c, e = .error c ∧ t = s.raise c := by
  cases e with
  | ok a => exact .inl ⟨a, rfl, (Host.Outcome.next.inj h).symm⟩
  | error c => exact .inr ⟨c, rfl, (Host.Outcome.next.inj h).symm⟩

/-- Everything the check of a data operand can do: the masked addresses, or the condition of the least bad one. -/
theorem State.dataAddrs_cases (s : State) (n : Nat) :
    (s.dataAddrs n = .ok (maskedRange s.I.toNat n) ∧ DataInRange s n) ∨
      (s.dataAddrs n = .error (.outOfRangeAccess .data (max s.I.toNat 4096) s.pc0) ∧
        s.params.oorPolicy = .report ∧ 0 < n ∧ 4096 < s.I.toNat + n) :=
  addrs_cases _ _ _ _ _

theorem State.eq_maskedRange_of_dataAddrs_ok {s : State} {n : Nat} {as : List Nat} (h : s.dataAddrs n = .ok as) :
    as = maskedRange s.I.toNat n := by
  rcases s.dataAddrs_cases n with ⟨hok, -⟩ | ⟨herr, -⟩
  · exact Except.ok.inj (h.symm.trans hok)
  · rw [herr] at h; cases h

/-- A condition that the check of a data operand raises is one of its kind, fatal, and of a value out of range. -/
theorem State.dataAddrs_error {s : State} {n : Nat} {c : Condition} (h : s.dataAddrs n = .error c) :
    ∃ a, c = .outOfRangeAccess .data a s.pc0 ∧ c.fatalUnder s.params ∧ c.outside := by
  rcases s.dataAddrs_cases n with ⟨hok, -⟩ | ⟨herr, hp, -, -⟩
  · rw [hok] at h; cases h
  · cases herr.symm.trans h
    exact ⟨_, rfl, hp, le_max_right _ _⟩

theorem State.keyOperand_cases (s : State) (x : Reg) :
    (∃ k : Fin 16, s.keyOperand x = .ok k ∧ k.val = (s.reg x).toNat % 16 ∧
        (s.params.oorPolicy = .mask ∨ (s.reg x).toNat < 16)) ∨
      (s.keyOperand x = .error (.outOfRangeAccess .keypad (s.reg x).toNat s.pc0) ∧
        s.params.oorPolicy = .report ∧ 16 ≤ (s.reg x).toNat) :=
  keyIndex_cases _ _ _

theorem State.keyOperand_error {s : State} {x : Reg} {c : Condition} (h : s.keyOperand x = .error c) :
    ∃ v, c = .outOfRangeAccess .keypad v s.pc0 ∧ c.fatalUnder s.params ∧ c.outside := by
  rcases s.keyOperand_cases x with ⟨k, hok, -⟩ | ⟨herr, hp, hv⟩
  · rw [hok] at h; cases h
  · cases herr.symm.trans h
    exact ⟨_, rfl, hp, hv, (s.reg x).isLt⟩

/-! ### RET, CALL and FX0A, by their cases -/

theorem exec_ret_of_pos {s : State} (h : 0 < s.SP.val) :
    exec .ret s = .next ({ s with SP := ⟨s.SP.val - 1, by omega⟩ }.setPc s.stack[s.SP.val - 1]) := by
  simp [exec, execRet, State.pop, h]

theorem exec_ret_of_empty {s : State} (h : s.SP.val = 0) :
    exec .ret s = .next (s.stackFailure s (.stackUnderflow s.pc0)) := by
  simp [exec, execRet, State.pop_eq_none.mpr h]

theorem exec_call_of_room (nnn : Addr12) {s : State} (h : s.SP.val < 64) :
    exec (.call nnn) s = .next ({ s with
      stack := s.stack.set s.SP.val s.pc
      SP := ⟨s.SP.val + 1, by omega⟩ }.setPc (zextNNN nnn)) := by
  simp [exec, execCall, State.push, h]

theorem exec_call_of_full (nnn : Addr12) {s : State} (h : s.SP.val = 64) :
    exec (.call nnn) s = .next (s.stackFailure (s.setPc (zextNNN nnn)) (.stackOverflow s.pc0)) := by
  simp [exec, execCall, State.push_eq_none.mpr h]

/-! A stack failure is raised under Fatal and reported under ClampContinue (R19). -/

theorem State.stackFailure_of_fatal {s : State} (cont : State) (c : Condition) (h : s.params.stackPolicy = .fatal) :
    s.stackFailure cont c = s.raise c := by
  simp [State.stackFailure, h]

theorem State.stackFailure_of_clamp {s : State} (cont : State) (c : Condition)
    (h : s.params.stackPolicy = .clampContinue) : s.stackFailure cont c = cont.report c := by
  simp [State.stackFailure, h]

theorem State.stackFailure_cases (s cont : State) (c : Condition) :
    (s.params.stackPolicy = .fatal ∧ s.stackFailure cont c = s.raise c) ∨
      (s.params.stackPolicy = .clampContinue ∧ s.stackFailure cont c = cont.report c) := by
  cases hp : s.params.stackPolicy
  · exact .inl ⟨rfl, State.stackFailure_of_fatal cont c hp⟩
  · exact .inr ⟨rfl, State.stackFailure_of_clamp cont c hp⟩

/-- Everything RET can do (R81). -/
theorem exec_ret_cases {s t : State} (h : exec .ret s = .next t) :
    (∃ hs : 0 < s.SP.val, t = { s with SP := ⟨s.SP.val - 1, by omega⟩ }.setPc s.stack[s.SP.val - 1]) ∨
      (s.SP.val = 0 ∧ s.params.stackPolicy = .fatal ∧ t = s.raise (.stackUnderflow s.pc0)) ∨
      (s.SP.val = 0 ∧ s.params.stackPolicy = .clampContinue ∧ t = s.report (.stackUnderflow s.pc0)) := by
  rcases Nat.eq_zero_or_pos s.SP.val with h0 | hpos
  · rw [exec_ret_of_empty h0] at h
    cases h
    rcases s.stackFailure_cases s (.stackUnderflow s.pc0) with ⟨hp, heq⟩ | ⟨hp, heq⟩
    · exact .inr (.inl ⟨h0, hp, heq⟩)
    · exact .inr (.inr ⟨h0, hp, heq⟩)
  · rw [exec_ret_of_pos hpos] at h
    cases h
    exact .inl ⟨hpos, rfl⟩

/-- Everything CALL can do (R83). -/
theorem exec_call_cases {nnn : Addr12} {s t : State} (h : exec (.call nnn) s = .next t) :
    (∃ hs : s.SP.val < 64, t = { s with
      stack := s.stack.set s.SP.val s.pc
      SP := ⟨s.SP.val + 1, by omega⟩ }.setPc (zextNNN nnn)) ∨
      (s.SP.val = 64 ∧ s.params.stackPolicy = .fatal ∧ t = s.raise (.stackOverflow s.pc0)) ∨
      (s.SP.val = 64 ∧ s.params.stackPolicy = .clampContinue ∧
        t = (s.setPc (zextNNN nnn)).report (.stackOverflow s.pc0)) := by
  rcases Nat.lt_or_ge s.SP.val 64 with hlt | hge
  · rw [exec_call_of_room nnn hlt] at h
    cases h
    exact .inl ⟨hlt, rfl⟩
  · have hfull : s.SP.val = 64 := by omega
    rw [exec_call_of_full nnn hfull] at h
    cases h
    rcases s.stackFailure_cases (s.setPc (zextNNN nnn)) (.stackOverflow s.pc0) with ⟨hp, heq⟩ | ⟨hp, heq⟩
    · exact .inr (.inl ⟨hfull, hp, heq⟩)
    · exact .inr (.inr ⟨hfull, hp, heq⟩)

theorem exec_ldVxK_of_none (x : Reg) {s : State} (h : lowestKey s.key = none) :
    exec (.ldVxK x) s = .next (s.setPc s.pc0) := by
  simp [exec, execLdVxK, h]

/-- The rewind of `pc` is undone when a key is pressed, so the register write is all that is left. -/
theorem exec_ldVxK_of_some (x : Reg) {s : State} {k : Fin 16} (h : lowestKey s.key = some k) :
    exec (.ldVxK x) s = .next (s.setReg x (BitVec.ofNat 8 k.val)) := by
  simp [exec, execLdVxK, h, State.setPc, State.setReg, State.pc0]

/-- Everything FX0A can do (R115). -/
theorem exec_ldVxK_cases {x : Reg} {s t : State} (h : exec (.ldVxK x) s = .next t) :
    (lowestKey s.key = none ∧ t = s.setPc s.pc0) ∨
      ∃ k : Fin 16, lowestKey s.key = some k ∧ t = s.setReg x (BitVec.ofNat 8 k.val) := by
  cases hk : lowestKey s.key with
  | none =>
    rw [exec_ldVxK_of_none x hk] at h
    exact .inl ⟨rfl, (Host.Outcome.next.inj h).symm⟩
  | some k =>
    rw [exec_ldVxK_of_some x hk] at h
    exact .inr ⟨k, rfl, (Host.Outcome.next.inj h).symm⟩

/-! ### Every execute phase completes (R71) -/

theorem exec_next (i : Instr) (s : State) : ∃ t, exec i s = .next t := by
  cases i with
  | ret =>
    rcases Nat.eq_zero_or_pos s.SP.val with h | h
    · exact ⟨_, exec_ret_of_empty h⟩
    · exact ⟨_, exec_ret_of_pos h⟩
  | call nnn =>
    rcases Nat.lt_or_ge s.SP.val 64 with h | h
    · exact ⟨_, exec_call_of_room nnn h⟩
    · exact ⟨_, exec_call_of_full nnn (by omega)⟩
  | ldVxK x =>
    cases h : lowestKey s.key with
    | none => exact ⟨_, exec_ldVxK_of_none x h⟩
    | some k => exact ⟨_, exec_ldVxK_of_some x h⟩
  | drw | skp | sknp | ldBVx | ldMemVx | ldVxMem => exact State.checked_next ..
  | _ => exact ⟨_, rfl⟩

theorem step_next (s : State) : ∃ t, step s = .next t := by
  rcases step_cases s with ⟨c, -, h⟩ | ⟨-, c, -, h⟩ | ⟨-, w, e, -, -, h⟩ | ⟨-, w, i, -, -, h⟩
  · exact ⟨_, h⟩
  · exact ⟨_, h⟩
  · exact ⟨_, h⟩
  · rw [h]; exact exec_next i _

/-- Settles O11: the arms that branch answer a next state in each branch, and a step is one of four next states. -/
theorem everyStepCompletes : Obligations.EveryStepCompletes := ⟨exec_next, step_next⟩

theorem transact_next (τ : Transaction) (s : State) : ∃ u r, transact τ s = .next (u, r) := by
  cases τ with
  | step traced =>
    obtain ⟨u, hu⟩ := step_next s
    exact ⟨u, _, transact_step traced hu⟩
  | _ => exact ⟨_, _, rfl⟩

/-! ### The frame of every instruction -/

theorem sameBut_checked {α : Type} {s t : State} {e : Except Condition α} {run : α → State} {w : Reg → Prop}
    {m : Nat → Prop} {l : List Part} (h : s.checked e run = .next t) (hh : Part.halted ∈ l) (hs : Part.status ∈ l)
    (hrun : ∀ a, e = .ok a → SameBut s (run a) w m l) : SameBut s t w m l := by
  rcases State.checked_cases h with ⟨a, ha, rfl⟩ | ⟨c, -, rfl⟩
  · exact hrun a ha
  · exact sameBut_raise s c w m hh hs

/-- A push or a pop with a write of `pc` changes nothing else. -/
theorem sameBut_stack_setPc (s : State) (entries : Vector Word 64) (depth : Fin 65) (a : Word) :
    SameBut s ({ s with stack := entries, SP := depth }.setPc a) noRegs noBytes [.pc, .stack] :=
  ⟨fun _ _ => rfl, fun _ _ => rfl, fun q hq => by cases q <;> simp_all [Part.same]⟩

theorem sameBut_setPc_report (s : State) (a : Word) (c : Condition) :
    SameBut s ((s.setPc a).report c) noRegs noBytes [.pc, .status] :=
  ⟨fun _ _ => rfl, fun _ _ => rfl, fun q hq => by cases q <;> simp_all [Part.same]⟩

theorem sameBut_ret {s t : State} (h : exec .ret s = .next t) :
    SameBut s t noRegs noBytes [.pc, .stack, .halted, .status] := by
  rcases exec_ret_cases h with ⟨hs, rfl⟩ | ⟨-, -, rfl⟩ | ⟨-, -, rfl⟩
  · exact (sameBut_stack_setPc s s.stack _ _).mono (fun _ => id) (fun _ => id) (by simp)
  · exact sameBut_raise s _ _ _ (by simp) (by simp)
  · exact sameBut_report s _ _ _ (by simp)

theorem sameBut_call {nnn : Addr12} {s t : State} (h : exec (.call nnn) s = .next t) :
    SameBut s t noRegs noBytes [.pc, .stack, .halted, .status] := by
  rcases exec_call_cases h with ⟨hs, rfl⟩ | ⟨-, -, rfl⟩ | ⟨-, -, rfl⟩
  · exact (sameBut_stack_setPc s _ _ _).mono (fun _ => id) (fun _ => id) (by simp)
  · exact sameBut_raise s _ _ _ (by simp) (by simp)
  · exact (sameBut_setPc_report s _ _).mono (fun _ => id) (fun _ => id) (by simp)

theorem sameBut_ldVxK {x : Reg} {s t : State} (h : exec (.ldVxK x) s = .next t) :
    SameBut s t (onlyReg x) noBytes [.pc] := by
  rcases exec_ldVxK_cases h with ⟨-, rfl⟩ | ⟨k, -, rfl⟩
  · exact sameBut_setPc s _ _ _ List.mem_cons_self
  · exact sameBut_setReg s x _ (w := onlyReg x) rfl _ _

theorem sameBut_rnd (s : State) (x : Reg) (nn : Byte) :
    SameBut s (s.nextDraw.rndWith s.drawByte x nn) (onlyReg x) noBytes [.draws] :=
  ⟨fun r hr => by rw [State.reg_rndWith, if_neg (by rintro rfl; exact hr rfl), State.reg_nextDraw], fun _ _ => rfl,
    fun q hq => by cases q <;> simp_all [Part.same]⟩

/-- The frame of a load of as many bytes as there are registers up to V[X]. -/
theorem sameBut_blockLoad (s : State) (x : Reg) :
    SameBut s (s.setRegs (s.readBytes (maskedRange s.I.toNat (x.val + 1)))) (· ≤ x) noBytes [] := by
  refine sameBut_setRegs s _ (fun r hr => ?_) _ _
  rw [State.readBytes, List.length_map, length_maskedRange] at hr
  exact Nat.le_of_lt_succ hr

/-- Each instruction keeps everything outside its write set. -/
theorem exec_sameBut {i : Instr} {s t : State} (h : exec i s = .next t) :
    SameBut s t (writesReg i) (storesAt s i) (writesParts i) := by
  cases i with
  | ret => exact sameBut_ret h
  | call => exact sameBut_call h
  | ldVxK => exact sameBut_ldVxK h
  | drw x y n =>
    exact sameBut_checked h (by simp [writesParts]) (by simp [writesParts])
      fun as _ => sameBut_setCanvas s _ (w := onlyReg VF) rfl _ (by simp [writesParts])
  | skp | sknp =>
    exact sameBut_checked h (by simp [writesParts]) (by simp [writesParts])
      fun k _ => sameBut_skipIf s _ _ _ (by simp [writesParts])
  | ldBVx | ldMemVx =>
    exact sameBut_checked h (by simp [writesParts]) (by simp [writesParts])
      fun as has => sameBut_writeBytes s as _ _ (fun a ha => ⟨as, has, ha⟩) _
  | ldVxMem x =>
    refine sameBut_checked h (by simp [writesParts]) (by simp [writesParts])
      fun as has => ?_
    rw [State.eq_maskedRange_of_dataAddrs_ok has]
    exact (sameBut_blockLoad s x).mono (fun _ => id) (fun _ => id) (by simp)
  | cls => cases h; exact sameBut_setFb s _ _ _ List.mem_cons_self
  | jp | jpV0 => cases h; exact sameBut_setPc s _ _ _ List.mem_cons_self
  | seVxNn | sneVxNn | seVxVy | sneVxVy => cases h; exact sameBut_skipIf s _ _ _ List.mem_cons_self
  | ldI | addIVx | ldFVx => cases h; exact sameBut_setI s _ _ _ List.mem_cons_self
  | ldDtVx => cases h; exact sameBut_setDT s _ _ _ List.mem_cons_self
  | ldStVx => cases h; exact sameBut_setST s _ _ _ List.mem_cons_self
  | rnd x nn => cases h; exact sameBut_rnd s x nn
  | ldVxNn x | addVxNn x | ldVxVy x | or x | and x | xor x | ldVxDt x =>
    cases h; exact sameBut_setReg s x _ (w := onlyReg x) rfl _ _
  | addVxVy x | sub x | shr x | subn x | shl x =>
    cases h; exact sameBut_setResultFlag s x _ _ (w := regAndFlag x) (.inl rfl) (.inr rfl) _ _

/-- Settles O41: the frame of the updates that each arm makes. -/
theorem instructionsChangeOnlyTheirWriteSet : Obligations.InstructionsChangeOnlyTheirWriteSet :=
  fun _ _ _ h => exec_sameBut h

theorem exec_params {i : Instr} {s t : State} (h : exec i s = .next t) : t.params = s.params :=
  (exec_sameBut h).parts .params (by cases i <;> simp [writesParts])

/-! ### How an execute phase ends -/

/-- The three ways in which an execute phase ends, as the latch and the status show them: it completes, it raises a
fatal condition that its rule names (R77), or it completes and reports one (R78). -/
inductive Ending (i : Instr) (s t : State) : Prop
  | completed (latch : t.halted = s.halted) (status : t.status = s.status)
  | raised (c : Condition) (named : canRaise i c) (fatal : c.fatalUnder s.params) (outside : c.outside)
      (eq : t = s.raise c)
  | reported (c : Condition) (named : canRaise i c) (latch : t.halted = s.halted) (status : t.status = .condition c)

theorem ending_of_sameBut {i : Instr} {s t : State} {w : Reg → Prop} {m : Nat → Prop} {l : List Part}
    (h : SameBut s t w m l) (hh : Part.halted ∉ l) (hs : Part.status ∉ l) : Ending i s t :=
  .completed (h.parts .halted hh) (h.parts .status hs)

theorem ending_dataAddrs {i : Instr} {s t : State} {n : Nat} {run : List Nat → State}
    (h : s.checked (s.dataAddrs n) run = .next t) (hi : ∀ a w, canRaise i (.outOfRangeAccess .data a w))
    (hrun : ∀ as, (run as).halted = s.halted ∧ (run as).status = s.status) : Ending i s t := by
  rcases State.checked_cases h with ⟨as, -, rfl⟩ | ⟨c, hc, rfl⟩
  · exact .completed (hrun as).1 (hrun as).2
  · obtain ⟨a, rfl, hfatal, hout⟩ := State.dataAddrs_error hc
    exact .raised _ (hi a _) hfatal hout rfl

theorem ending_keyOperand {i : Instr} {s t : State} {x : Reg} {cond : Fin 16 → Bool}
    (h : s.checked (s.keyOperand x) (fun k => s.skipIf (cond k)) = .next t)
    (hi : ∀ v w, canRaise i (.outOfRangeAccess .keypad v w)) : Ending i s t := by
  rcases State.checked_cases h with ⟨k, -, rfl⟩ | ⟨c, hc, rfl⟩
  · rw [State.skipIf_eq]; exact .completed rfl rfl
  · obtain ⟨v, rfl, hfatal, hout⟩ := State.keyOperand_error hc
    exact .raised _ (hi v _) hfatal hout rfl

/-- An instruction whose frame holds the latch and the status completes; the eight others name their conditions. -/
theorem exec_ending {i : Instr} {s t : State} (h : exec i s = .next t) : Ending i s t := by
  cases i with
  | ret =>
    rcases exec_ret_cases h with ⟨hs, rfl⟩ | ⟨-, hp, rfl⟩ | ⟨-, -, rfl⟩
    · exact .completed rfl rfl
    · exact .raised (.stackUnderflow s.pc0) trivial hp trivial rfl
    · exact .reported (.stackUnderflow s.pc0) trivial rfl rfl
  | call nnn =>
    rcases exec_call_cases h with ⟨hs, rfl⟩ | ⟨-, hp, rfl⟩ | ⟨-, -, rfl⟩
    · exact .completed rfl rfl
    · exact .raised (.stackOverflow s.pc0) trivial hp trivial rfl
    · exact .reported (.stackOverflow s.pc0) trivial rfl rfl
  | drw => exact ending_dataAddrs h (fun _ _ => trivial) fun _ => ⟨rfl, rfl⟩
  | ldBVx | ldMemVx =>
    exact ending_dataAddrs h (fun _ _ => trivial) fun as => by rw [State.writeBytes_eq]; exact ⟨rfl, rfl⟩
  | ldVxMem =>
    exact ending_dataAddrs h (fun _ _ => trivial) fun _ => ⟨State.halted_setRegs s _, State.status_setRegs s _⟩
  | skp | sknp => exact ending_keyOperand h fun _ _ => trivial
  | _ => exact ending_of_sameBut (exec_sameBut h) (by simp [writesParts]) (by simp [writesParts])

end Sys2Proof.Machine
end

section
namespace Sys2Proof.Machine

/-! ### Status and latch after a step (R77, R121 to R123) -/

theorem State.fetchedWord_of_ok {s : State} {w : Word} (h : s.halted = none) (hf : s.fetch = .ok w) :
    s.fetchedWord = some w := by
  simp [State.fetchedWord, h, hf]

theorem State.fetchedWord_of_error {s : State} {c : Condition} (h : s.halted = none) (hf : s.fetch = .error c) :
    s.fetchedWord = none := by
  simp [State.fetchedWord, h, hf]

theorem State.currentInstr_of_ok {s : State} {w : Word} {i : Instr} (h : s.fetchedWord = some w)
    (hd : decodeWord w = .ok i) : s.currentInstr = some i := by
  simp [State.currentInstr, h, hd]

theorem State.currentInstr_of_error {s : State} {w : Word} {e : DecodeError} (h : s.fetchedWord = some w)
    (hd : decodeWord w = .error e) : s.currentInstr = none := by
  simp [State.currentInstr, h, hd]

/-- A condition that a fetch raises is one of its kind, fatal, and of an address out of range (R74). -/
theorem State.fetch_error {s : State} {c : Condition} (h : s.fetch = .error c) :
    ∃ a, c = .outOfRangeAccess .fetch a s.pc ∧ c.fatalUnder s.params ∧ c.outside := by
  rcases s.fetch_cases with ⟨hok, -⟩ | ⟨herr, hp, -⟩
  · rw [hok] at h; cases h
  · cases herr.symm.trans h
    exact ⟨_, rfl, hp, le_max_right _ _⟩

/-- What a step of a machine that is not halted can do, in terms of its answer. -/
theorem step_running_cases {s t : State} (hh : s.halted = none) (h : step s = .next t) :
    (∃ c, s.fetch = .error c ∧ t = s.raise c) ∨
      (∃ w e, s.fetch = .ok w ∧ decodeWord w = .error e ∧ t = s.unknownStep w) ∨
      ∃ w i, s.fetch = .ok w ∧ decodeWord w = .ok i ∧ exec i s.preAdvance = .next t := by
  rcases step_cases s with ⟨c, hc, -⟩ | ⟨-, c, hf, hs⟩ | ⟨-, w, e, hf, hd, hs⟩ | ⟨-, w, i, hf, hd, hs⟩
  · rw [hh] at hc; cases hc
  · rw [hs] at h; cases h
    exact .inl ⟨c, hf, rfl⟩
  · rw [hs] at h; cases h
    exact .inr (.inl ⟨w, e, hf, hd, rfl⟩)
  · exact .inr (.inr ⟨w, i, hf, hd, hs ▸ h⟩)

/-- Settles O12: the four kinds of step, an executed instruction by the way in which it ends. -/
theorem statusComesFromItsInstruction : Obligations.StatusComesFromItsInstruction := by
  intro s t hh h
  rcases step_running_cases hh h with ⟨c, hf, rfl⟩ | ⟨w, e, hf, hd, rfl⟩ | ⟨w, i, hf, hd, hx⟩
  · obtain ⟨a, rfl, -, -⟩ := State.fetch_error hf
    exact .inr (.inl ⟨a, rfl, State.fetchedWord_of_error hh hf⟩)
  · have hw := State.fetchedWord_of_ok hh hf
    exact .inr (.inr (.inl ⟨w, rfl, hw, State.currentInstr_of_error hw hd⟩))
  · have hi := State.currentInstr_of_ok (State.fetchedWord_of_ok hh hf) hd
    rcases exec_ending hx with ⟨-, hs⟩ | ⟨c, hc, -, -, rfl⟩ | ⟨c, hc, -, hs⟩
    · exact .inl hs
    · exact .inr (.inr (.inr ⟨i, c, rfl, hi, hc⟩))
    · exact .inr (.inr (.inr ⟨i, c, hs, hi, hc⟩))

/-- Settles O13: only a fetch or an instruction that raises sets the latch, and `raise` keeps the rest of its state,
which is the pre-advanced one once a word was fetched. -/
theorem fatalConditionIsPrecise : Obligations.FatalConditionIsPrecise := by
  intro s t c hh h hc
  rcases step_running_cases hh h with ⟨c', hf, rfl⟩ | ⟨w, e, hf, hd, rfl⟩ | ⟨w, i, hf, hd, hx⟩
  · cases hc
    rw [State.fetchedWord_of_error hh hf, if_pos rfl]
    rfl
  · rw [State.halted_unknownStep, hh] at hc; cases hc
  · rcases exec_ending hx with ⟨hl, -⟩ | ⟨c', -, -, -, rfl⟩ | ⟨c', -, hl, -⟩
    · rw [hl, State.halted_preAdvance, hh] at hc; cases hc
    · cases hc
      rw [State.fetchedWord_of_ok hh hf, if_neg (by simp)]
      rfl
    · rw [hl, State.halted_preAdvance, hh] at hc; cases hc

/-! ### The latch over a schedule (R40) -/

/-- `t` is halted on `c` with the execution state of `s`. -/
structure KeptHalted (c : Condition) (s t : State) : Prop where
  halted : t.halted = some c
  V : t.V = s.V
  pc : t.pc = s.pc
  I : t.I = s.I
  stack : t.stack = s.stack
  SP : t.SP = s.SP
  fb : t.fb = s.fb

theorem KeptHalted.trans {c : Condition} {s t u : State} (h : KeptHalted c s t) (h' : KeptHalted c t u) :
    KeptHalted c s u :=
  ⟨h'.halted, h'.V.trans h.V, h'.pc.trans h.pc, h'.I.trans h.I, h'.stack.trans h.stack, h'.SP.trans h.SP,
    h'.fb.trans h.fb⟩

theorem keptHalted_load {s : State} {c : Condition} (h : s.halted = some c) (image : List Byte) :
    KeptHalted c s (s.load image).1 := by
  unfold State.load
  split <;> exact ⟨h, rfl, rfl, rfl, rfl, rfl, rfl⟩

theorem keptHalted_setKey {s : State} {c : Condition} (h : s.halted = some c) (k : Vector Bool 16) :
    KeptHalted c s (s.setKey k) :=
  ⟨h, rfl, rfl, rfl, rfl, rfl, rfl⟩

/-- No transaction but `init` frees a halted machine or changes its execution state. -/
theorem transact_keptHalted {τ : Transaction} {s : State} {c : Condition} (hτ : τ ≠ .init) (h : s.halted = some c) :
    ∃ u r, transact τ s = .next (u, r) ∧ KeptHalted c s u := by
  cases τ with
  | init => exact absurd rfl hτ
  | load image => exact ⟨_, _, rfl, keptHalted_load h image⟩
  | step traced => exact ⟨_, _, transact_step traced (step_halted h), h, rfl, rfl, rfl, rfl, rfl, rfl⟩
  | tickTimers => exact ⟨_, _, transact_tickTimers s, h, rfl, rfl, rfl, rfl, rfl, rfl⟩
  | setInput k => exact ⟨_, _, transact_setInput k s, keptHalted_setKey h _⟩
  | displaySnapshot => exact ⟨_, _, transact_displaySnapshot s, h, rfl, rfl, rfl, rfl, rfl, rfl⟩
  | soundTimerActive => exact ⟨_, _, transact_soundTimerActive s, h, rfl, rfl, rfl, rfl, rfl, rfl⟩

theorem runSchedule_keptHalted {ts : List Transaction} {s : State} {c : Condition} (hts : Transaction.init ∉ ts)
    (h : s.halted = some c) : ∃ t, runSchedule ts s = .next t ∧ KeptHalted c s t := by
  induction ts generalizing s with
  | nil => exact ⟨s, rfl, h, rfl, rfl, rfl, rfl, rfl, rfl⟩
  | cons τ ts ih =>
    obtain ⟨hτ, hts⟩ := not_or.mp (mt List.mem_cons.mpr hts)
    obtain ⟨u, r, hu, hsu⟩ := transact_keptHalted (Ne.symm hτ) h
    obtain ⟨t, ht, hut⟩ := ih hts hsu.halted
    exact ⟨t, (runSchedule_cons hu).trans ht, hsu.trans hut⟩

/-- Settles O14, by induction over the schedule: each of the six transactions keeps a halted machine halted. -/
theorem onlyInitializeClearsTheLatch : Obligations.OnlyInitializeClearsTheLatch := by
  refine ⟨fun ts s c hts h => ?kept, fun s => ⟨s.coreInit, rfl, rfl⟩⟩
  case kept =>
    obtain ⟨t, ht, hk⟩ := runSchedule_keptHalted hts h
    exact ⟨t, ht, hk.halted, hk.V, hk.pc, hk.I, hk.stack, hk.SP, hk.fb⟩

/-! ### The invariant -/

/-- The canonical form of memory is kept: only FX33 and FX55 store, at addresses that their check has passed. -/
theorem exec_wf {i : Instr} {s t : State} (h : exec i s = .next t) (hw : Memory.wf s.params s.mem) :
    Memory.wf s.params t.mem := by
  cases i with
  | ret => rcases exec_ret_cases h with ⟨-, rfl⟩ | ⟨-, -, rfl⟩ | ⟨-, -, rfl⟩ <;> exact hw
  | call => rcases exec_call_cases h with ⟨-, rfl⟩ | ⟨-, -, rfl⟩ | ⟨-, -, rfl⟩ <;> exact hw
  | ldVxK => rcases exec_ldVxK_cases h with ⟨-, rfl⟩ | ⟨k, -, rfl⟩ <;> exact hw
  | skp | sknp =>
    rcases State.checked_cases h with ⟨k, -, rfl⟩ | ⟨c, -, rfl⟩
    · rw [State.skipIf_eq]; exact hw
    · exact hw
  | drw => rcases State.checked_cases h with ⟨as, -, rfl⟩ | ⟨c, -, rfl⟩ <;> exact hw
  | ldVxMem =>
    rcases State.checked_cases h with ⟨as, -, rfl⟩ | ⟨c, -, rfl⟩
    · rw [State.mem_setRegs]; exact hw
    · exact hw
  | ldBVx | ldMemVx =>
    rcases State.checked_cases h with ⟨as, has, rfl⟩ | ⟨c, -, rfl⟩
    · cases State.eq_maskedRange_of_dataAddrs_ok has
      exact State.wf_writeBytes _ _ hw fun a => maskedRange_lt
    · exact hw
  | seVxNn | sneVxNn | seVxVy | sneVxVy => cases h; simpa [State.skipIf_eq] using hw
  | _ => cases h; exact hw

theorem Inv.raise {s : State} {c : Condition} (h : Inv s) (hfatal : c.fatalUnder s.params) (hout : c.outside) :
    Inv (s.raise c) :=
  ⟨h.memory, fun _ hc => Option.some.inj hc ▸ ⟨hfatal, hout⟩⟩

theorem exec_inv {i : Instr} {s t : State} (hi : Inv s) (h : exec i s = .next t) : Inv t := by
  have hp := exec_params h
  have hmem : Memory.wf t.params t.mem := hp ▸ exec_wf h hi.memory
  rcases exec_ending h with ⟨hl, -⟩ | ⟨c, -, hfatal, hout, rfl⟩ | ⟨c, -, hl, -⟩
  · exact ⟨hmem, by rw [hl, hp]; exact hi.latch⟩
  · exact hi.raise hfatal hout
  · exact ⟨hmem, by rw [hl, hp]; exact hi.latch⟩

theorem step_inv {s t : State} (hi : Inv s) (h : step s = .next t) : Inv t := by
  cases hh : s.halted with
  | some c =>
    rw [step_halted hh] at h; cases h
    exact ⟨hi.memory, hi.latch⟩
  | none =>
    rcases step_running_cases hh h with ⟨c, hf, rfl⟩ | ⟨w, e, -, -, rfl⟩ | ⟨w, i, -, -, hx⟩
    · obtain ⟨a, -, hfatal, hout⟩ := State.fetch_error hf
      exact hi.raise hfatal hout
    · exact ⟨hi.memory, hi.latch⟩
    · exact exec_inv (s := s.preAdvance) ⟨hi.memory, hi.latch⟩ hx

/-- Settles O45: a step stores only at addresses of the memory, and latches only what a check or the stack policy made
fatal. -/
theorem stepKeepsInvariant : Obligations.StepKeepsInvariant := fun _ _ => step_inv

theorem inv_resetWith (p : Params) : Inv (State.resetWith p) :=
  ⟨Memory.wf_nil p, fun _ hc => by cases hc⟩

/-- Settles O46: the reset memory lists no address, and nothing is latched. -/
theorem resetMeetsInvariant : Obligations.ResetMeetsInvariant := inv_resetWith

theorem step_params {s t : State} (h : step s = .next t) : t.params = s.params := by
  cases hh : s.halted with
  | some c => rw [step_halted hh] at h; cases h; rfl
  | none =>
    rcases step_running_cases hh h with ⟨c, -, rfl⟩ | ⟨w, e, -, -, rfl⟩ | ⟨w, i, -, -, hx⟩
    · rfl
    · rfl
    · exact exec_params (s := s.preAdvance) hx

theorem load_inv {s : State} (h : Inv s) (image : List Byte) :
    Inv (s.load image).1 ∧ (s.load image).1.params = s.params := by
  unfold State.load
  split
  · exact ⟨h, rfl⟩
  · next hlen =>
    simp only [Config.loadCapacity, not_lt] at hlen
    exact ⟨⟨Memory.wf_writeFrom image h.memory (by simp only [Config.programStart]; omega), h.latch⟩, rfl⟩

theorem inv_setKey {s : State} (h : Inv s) (k : Vector Bool 16) : Inv (s.setKey k) := ⟨h.memory, h.latch⟩

theorem transact_inv (τ : Transaction) {s : State} (h : Inv s) :
    ∃ u r, transact τ s = .next (u, r) ∧ Inv u ∧ u.params = s.params := by
  cases τ with
  | init => exact ⟨_, _, rfl, ⟨(inv_resetWith s.params).memory, (inv_resetWith s.params).latch⟩, rfl⟩
  | load image => exact ⟨_, _, rfl, load_inv h image⟩
  | step traced =>
    obtain ⟨u, hu⟩ := step_next s
    exact ⟨u, _, transact_step traced hu, step_inv h hu, step_params hu⟩
  | tickTimers => exact ⟨_, _, transact_tickTimers s, ⟨h.memory, h.latch⟩, rfl⟩
  | setInput k => exact ⟨_, _, transact_setInput k s, inv_setKey h _, State.params_setInput s k⟩
  | displaySnapshot | soundTimerActive => exact ⟨_, _, rfl, h, rfl⟩

theorem runSchedule_inv (ts : List Transaction) {s : State} (h : Inv s) :
    ∃ t, runSchedule ts s = .next t ∧ Inv t ∧ t.params = s.params := by
  induction ts generalizing s with
  | nil => exact ⟨s, rfl, h, rfl⟩
  | cons τ ts ih =>
    obtain ⟨u, r, hu, hi, hp⟩ := transact_inv τ h
    obtain ⟨t, ht, hti, htp⟩ := ih hi
    exact ⟨t, (runSchedule_cons hu).trans ht, hti, htp.trans hp⟩

/-- Settles O47, by induction over the schedule: every transaction answers, and keeps the invariant and the
parameters. -/
theorem schedulesKeepInvariant : Obligations.SchedulesKeepInvariant := fun ts _ h => runSchedule_inv ts h

end Sys2Proof.Machine
end

section
namespace Sys2Proof.Machine

/-! ### What an instruction does not see: the timers and the call stack (10_state.md sections 6 and 9) -/

/-- The state with other timers and another call stack. -/
def State.withTimersStack (s : State) (dt st : Byte) (entries : Vector Word 64) (depth : Fin 65) : State :=
  { s with DT := dt, ST := st, stack := entries, SP := depth }

/-- The instructions that read or write a timer or the call stack. -/
def usesTimerOrStack : Instr → Bool
  | .ret | .call _ | .ldVxDt _ | .ldDtVx _ | .ldStVx _ => true
  | _ => false

theorem State.writeBytes_withTimersStack (s : State) (as : List Nat) (bs : List Byte) (dt st : Byte)
    (entries : Vector Word 64) (depth : Fin 65) :
    (s.withTimersStack dt st entries depth).writeBytes as bs =
      (s.writeBytes as bs).withTimersStack dt st entries depth := by
  induction as generalizing s bs with
  | nil => cases bs <;> rfl
  | cons a as ih =>
    cases bs with
    | nil => rfl
    | cons b bs => exact ih (s.writeByte a b) bs

theorem State.skipIf_withTimersStack (s : State) (c : Bool) (dt st : Byte) (entries : Vector Word 64)
    (depth : Fin 65) :
    (s.withTimersStack dt st entries depth).skipIf c =
      (s.skipIf c).withTimersStack dt st entries depth := by
  cases c <;> rfl

/-- A checked execute phase on a changed state, where the check does not see the change and the run carries it over. -/
theorem State.checked_comm {α : Type} {s t : State} {e : Except Condition α} {run run' : α → State}
    {f : State → State} (h : s.checked e run = .next t) (hrun : ∀ a, run' a = f (run a))
    (hraise : ∀ c, (f s).raise c = f (s.raise c)) : (f s).checked e run' = .next (f t) := by
  rcases State.checked_cases h with ⟨a, rfl, rfl⟩ | ⟨c, rfl, rfl⟩
  · rw [State.checked_ok, hrun]
  · rw [State.checked_error, hraise]

/-- An instruction that uses neither carries another pair of timers and another call stack over unseen. -/
theorem exec_withTimersStack {i : Instr} {s t : State} (hi : usesTimerOrStack i = false)
    (h : exec i s = .next t) (dt st : Byte) (entries : Vector Word 64) (depth : Fin 65) :
    exec i (s.withTimersStack dt st entries depth) = .next (t.withTimersStack dt st entries depth) := by
  cases i with
  | ret | call | ldVxDt | ldDtVx | ldStVx => cases hi
  | ldVxK x =>
    rcases exec_ldVxK_cases h with ⟨hk, rfl⟩ | ⟨k, hk, rfl⟩
    · exact exec_ldVxK_of_none x hk
    · exact exec_ldVxK_of_some x hk
  | skp | sknp =>
    exact State.checked_comm (f := fun s => s.withTimersStack dt st entries depth) h
      (fun _ => State.skipIf_withTimersStack ..) fun _ => rfl
  | drw | ldVxMem =>
    exact State.checked_comm (f := fun s => s.withTimersStack dt st entries depth) h
      (fun _ => rfl) fun _ => rfl
  | ldBVx | ldMemVx =>
    exact State.checked_comm (f := fun s => s.withTimersStack dt st entries depth) h
      (fun _ => State.writeBytes_withTimersStack ..) fun _ => rfl
  | seVxNn | sneVxNn | seVxVy | sneVxVy =>
    cases h; exact congrArg Host.Outcome.next (State.skipIf_withTimersStack ..)
  | _ => cases h; rfl

/-- Such an instruction leaves the timers and the call stack as they are: carried over from themselves, they are in the
answer again. -/
theorem eq_withTimersStack {i : Instr} {s t : State} (hi : usesTimerOrStack i = false) (h : exec i s = .next t) :
    t = t.withTimersStack s.DT s.ST s.stack s.SP :=
  Host.Outcome.next.inj (h.symm.trans (exec_withTimersStack hi h s.DT s.ST s.stack s.SP))

theorem exec_setST_of_unused {i : Instr} {s t : State} (hi : usesTimerOrStack i = false) (h : exec i s = .next t)
    (b : Byte) : exec i (s.setST b) = .next (t.setST b) := by
  rw [eq_withTimersStack hi h]
  exact exec_withTimersStack hi h s.DT b s.stack s.SP

theorem exec_setDT_of_unused {i : Instr} {s t : State} (hi : usesTimerOrStack i = false) (h : exec i s = .next t)
    (b : Byte) : exec i (s.setDT b) = .next (t.setDT b) := by
  rw [eq_withTimersStack hi h]
  exact exec_withTimersStack hi h b s.ST s.stack s.SP

/-! #### RET and CALL do not see the timers -/

theorem State.stackFailure_withTimersStack (s cont : State) (c : Condition) (dt st : Byte) :
    (s.withTimersStack dt st s.stack s.SP).stackFailure (cont.withTimersStack dt st cont.stack cont.SP) c =
      (s.stackFailure cont c).withTimersStack dt st (s.stackFailure cont c).stack (s.stackFailure cont c).SP := by
  rcases s.stackFailure_cases cont c with ⟨hp, heq⟩ | ⟨hp, heq⟩ <;> rw [heq, State.stackFailure] <;>
    simp only [State.withTimersStack, hp] <;> rfl

theorem exec_ret_withTimers {s t : State} (h : exec .ret s = .next t) (dt st : Byte) :
    exec .ret (s.withTimersStack dt st s.stack s.SP) = .next (t.withTimersStack dt st t.stack t.SP) := by
  rcases Nat.eq_zero_or_pos s.SP.val with h0 | hpos
  · rw [exec_ret_of_empty h0] at h
    cases h
    exact (exec_ret_of_empty (s := s.withTimersStack dt st s.stack s.SP) h0).trans
      (congrArg Host.Outcome.next (s.stackFailure_withTimersStack s _ dt st))
  · rw [exec_ret_of_pos hpos] at h
    cases h
    exact exec_ret_of_pos (s := s.withTimersStack dt st s.stack s.SP) hpos

theorem exec_call_withTimers {nnn : Addr12} {s t : State} (h : exec (.call nnn) s = .next t) (dt st : Byte) :
    exec (.call nnn) (s.withTimersStack dt st s.stack s.SP) = .next (t.withTimersStack dt st t.stack t.SP) := by
  rcases Nat.lt_or_ge s.SP.val 64 with hlt | hge
  · rw [exec_call_of_room nnn hlt] at h
    cases h
    exact exec_call_of_room nnn (s := s.withTimersStack dt st s.stack s.SP) hlt
  · have hfull : s.SP.val = 64 := by omega
    rw [exec_call_of_full nnn hfull] at h
    cases h
    exact (exec_call_of_full nnn (s := s.withTimersStack dt st s.stack s.SP) hfull).trans
      (congrArg Host.Outcome.next (s.stackFailure_withTimersStack (s.setPc (zextNNN nnn)) _ dt st))

/-! #### Each alone -/

/-- `DT` is not in the frame of RET or CALL, nor is `ST`. -/
theorem withTimersStack_eq_setST {s t : State} {m : Nat → Prop} {w : Reg → Prop} {l : List Part} (b : Byte)
    (h : SameBut s t w m l) (hl : Part.DT ∉ l) : t.withTimersStack s.DT b t.stack t.SP = t.setST b := by
  rw [← show t.DT = s.DT from h.parts .DT hl]
  rfl

theorem withTimersStack_eq_setDT {s t : State} {m : Nat → Prop} {w : Reg → Prop} {l : List Part} (b : Byte)
    (h : SameBut s t w m l) (hl : Part.ST ∉ l) : t.withTimersStack b s.ST t.stack t.SP = t.setDT b := by
  rw [← show t.ST = s.ST from h.parts .ST hl]
  rfl

/-- No instruction reads `ST`, and only FX18 writes it. -/
theorem exec_setST {i : Instr} {s t : State} (hi : ∀ x, i ≠ .ldStVx x) (h : exec i s = .next t) (b : Byte) :
    exec i (s.setST b) = .next (t.setST b) := by
  cases i with
  | ldStVx x => exact absurd rfl (hi x)
  | ldVxDt | ldDtVx => cases h; rfl
  | ret => exact withTimersStack_eq_setST b (sameBut_ret h) (by simp) ▸ exec_ret_withTimers h s.DT b
  | call nnn => exact withTimersStack_eq_setST b (sameBut_call h) (by simp) ▸ exec_call_withTimers h s.DT b
  | _ => exact exec_setST_of_unused rfl h b

/-- Only FX07 reads `DT`, and only FX15 writes it. -/
theorem exec_setDT {i : Instr} {s t : State} (hi : ∀ x, i ≠ .ldVxDt x) (hi' : ∀ x, i ≠ .ldDtVx x)
    (h : exec i s = .next t) (b : Byte) : exec i (s.setDT b) = .next (t.setDT b) := by
  cases i with
  | ldVxDt x => exact absurd rfl (hi x)
  | ldDtVx x => exact absurd rfl (hi' x)
  | ldStVx => cases h; rfl
  | ret => exact withTimersStack_eq_setDT b (sameBut_ret h) (by simp) ▸ exec_ret_withTimers h b s.ST
  | call nnn => exact withTimersStack_eq_setDT b (sameBut_call h) (by simp) ▸ exec_call_withTimers h b s.ST
  | _ => exact exec_setDT_of_unused rfl h b

/-- Settles O42: a timer is carried over unseen by every instruction but its readers and writers, and the two writers
overwrite it. -/
theorem onlyFX07ReadsATimer : Obligations.OnlyFX07ReadsATimer :=
  ⟨fun _ _ _ b hi h => exec_setST hi h b, fun _ _ _ b hi hi' h => exec_setDT hi hi' h b, fun _ _ _ => ⟨rfl, rfl⟩⟩

/-- Only CALL and RET see the call stack. -/
theorem exec_withStack {i : Instr} {s t : State} (hr : i ≠ .ret) (hc : ∀ nnn, i ≠ .call nnn) (h : exec i s = .next t)
    (entries : Vector Word 64) (depth : Fin 65) :
    exec i { s with stack := entries, SP := depth } = .next { t with stack := entries, SP := depth } := by
  cases i with
  | ret => exact absurd rfl hr
  | call nnn => exact absurd rfl (hc nnn)
  | ldVxDt | ldDtVx | ldStVx => cases h; rfl
  | _ =>
    rw [eq_withTimersStack rfl h]
    exact exec_withTimersStack rfl h s.DT s.ST entries depth

/-- Settles O43: any entries and any depth are carried over unseen. -/
theorem onlyCallAndRetSeeTheStack : Obligations.OnlyCallAndRetSeeTheStack :=
  fun _ _ _ entries depth hr hc h => exec_withStack hr hc h entries depth

/-! ### Stale entries of the call stack (10_state.md section 6) -/

theorem StaleEq.refl (s : State) : StaleEq s s := ⟨rfl, fun _ _ => rfl⟩

/-- The entries alone make the difference. -/
theorem staleEq_iff {s t : State} : StaleEq s t ↔ ∃ entries : Vector Word 64, t = { s with stack := entries } ∧
    ∀ k : Fin 64, k.val < s.SP.val → entries[k.val] = s.stack[k.val] := by
  constructor
  · exact fun h => ⟨t.stack, h.rest, h.live⟩
  · rintro ⟨entries, rfl, hlive⟩
    exact ⟨rfl, hlive⟩

/-- RET reads the top entry only, which is live. -/
theorem exec_ret_staleEq {s t s' : State} (hst : StaleEq s t) (h : exec .ret s = .next s') :
    ∃ t', exec .ret t = .next t' ∧ StaleEq s' t' := by
  obtain ⟨entries, rfl, hlive⟩ := staleEq_iff.mp hst
  rcases Nat.eq_zero_or_pos s.SP.val with h0 | hpos
  · rw [exec_ret_of_empty h0] at h
    cases h
    refine ⟨_, exec_ret_of_empty (s := { s with stack := entries }) h0, ?_⟩
    simp only [State.stackFailure]
    cases s.params.stackPolicy <;> exact ⟨rfl, hlive⟩
  · rw [exec_ret_of_pos hpos] at h
    cases h
    have htop : entries[s.SP.val - 1] = s.stack[s.SP.val - 1] := hlive ⟨s.SP.val - 1, by omega⟩ (by simp only; omega)
    refine ⟨_, exec_ret_of_pos (s := { s with stack := entries }) hpos, ?_, fun k hk => hlive k ?_⟩
    · simp only [htop]; rfl
    · exact Nat.lt_of_lt_of_le hk (Nat.sub_le _ _)

/-- CALL reads no entry, and the one that it pushes is the same. -/
theorem exec_call_staleEq {nnn : Addr12} {s t s' : State} (hst : StaleEq s t) (h : exec (.call nnn) s = .next s') :
    ∃ t', exec (.call nnn) t = .next t' ∧ StaleEq s' t' := by
  obtain ⟨entries, rfl, hlive⟩ := staleEq_iff.mp hst
  rcases Nat.lt_or_ge s.SP.val 64 with hlt | hge
  · rw [exec_call_of_room nnn hlt] at h
    cases h
    refine ⟨_, exec_call_of_room nnn (s := { s with stack := entries }) hlt, rfl, fun k hk => ?_⟩
    simp only [State.stack_setPc, State.SP_setPc, Vector.getElem_set] at hk ⊢
    by_cases hk' : s.SP.val = k.val
    · rw [if_pos hk', if_pos hk']
    · rw [if_neg hk', if_neg hk']
      exact hlive k (by omega)
  · have hfull : s.SP.val = 64 := by omega
    rw [exec_call_of_full nnn hfull] at h
    cases h
    refine ⟨_, exec_call_of_full nnn (s := { s with stack := entries }) hfull, ?_⟩
    simp only [State.stackFailure]
    cases s.params.stackPolicy <;> exact ⟨rfl, hlive⟩

theorem exec_staleEq {i : Instr} {s t s' : State} (hst : StaleEq s t) (h : exec i s = .next s') :
    ∃ t', exec i t = .next t' ∧ StaleEq s' t' := by
  by_cases hr : i = .ret
  · subst hr; exact exec_ret_staleEq hst h
  by_cases hc : ∃ nnn, i = .call nnn
  · obtain ⟨nnn, rfl⟩ := hc; exact exec_call_staleEq hst h
  · have hc' : ∀ nnn, i ≠ .call nnn := fun nnn heq => hc ⟨nnn, heq⟩
    obtain ⟨hstack, hSP⟩ : s'.stack = s.stack ∧ s'.SP = s.SP :=
      (exec_sameBut h).parts .stack (by cases i <;> simp_all [writesParts])
    refine ⟨{ s' with stack := t.stack, SP := s.SP }, ?_, ?_, ?_⟩
    · rw [hst.rest]
      exact exec_withStack hr hc' h t.stack s.SP
    · rw [← hSP]
    · rw [hSP, hstack]; exact hst.live

theorem step_staleEq {s t s' : State} (hst : StaleEq s t) (h : step s = .next s') :
    ∃ t', step t = .next t' ∧ StaleEq s' t' := by
  cases hh : s.halted with
  | some c =>
    obtain ⟨entries, rfl, hlive⟩ := staleEq_iff.mp hst
    rw [step_halted hh] at h; cases h
    exact ⟨_, step_halted (s := { s with stack := entries }) hh, rfl, hlive⟩
  | none =>
    obtain ⟨entries, rfl, hlive⟩ := staleEq_iff.mp hst
    rcases step_running_cases hh h with ⟨c, hf, rfl⟩ | ⟨w, e, hf, hd, rfl⟩ | ⟨w, i, hf, hd, hx⟩
    · exact ⟨_, step_fetch_error (s := { s with stack := entries }) hh hf, rfl, hlive⟩
    · exact ⟨_, step_unmapped (s := { s with stack := entries }) hh hf hd, rfl, hlive⟩
    · obtain ⟨t', ht', hst'⟩ := exec_staleEq (t := { s.preAdvance with stack := entries }) ⟨rfl, hlive⟩ hx
      exact ⟨t', (step_exec (s := { s with stack := entries }) hh hf hd).trans ht', hst'⟩

theorem load_staleEq {s t : State} (hst : StaleEq s t) (image : List Byte) :
    StaleEq (s.load image).1 (t.load image).1 := by
  obtain ⟨entries, rfl, hlive⟩ := staleEq_iff.mp hst
  unfold State.load
  split <;> exact ⟨rfl, hlive⟩

theorem staleEq_setKey {s t : State} (hst : StaleEq s t) (k : Vector Bool 16) : StaleEq (s.setKey k) (t.setKey k) := by
  obtain ⟨entries, rfl, hlive⟩ := staleEq_iff.mp hst
  exact ⟨rfl, hlive⟩

theorem transact_staleEq {τ : Transaction} {s t s' : State} {r : Response} (hst : StaleEq s t)
    (h : transact τ s = .next (s', r)) : ∃ t' r', transact τ t = .next (t', r') ∧ StaleEq s' t' := by
  cases τ with
  | step traced =>
    obtain ⟨u, hu⟩ := step_next s
    obtain ⟨t', ht', hst'⟩ := step_staleEq hst hu
    rw [transact_step traced hu] at h; cases h
    exact ⟨t', _, transact_step traced ht', hst'⟩
  | load image => cases h; exact ⟨_, _, transact_load image t, load_staleEq hst image⟩
  | init =>
    obtain ⟨entries, rfl, hlive⟩ := staleEq_iff.mp hst
    cases h
    exact ⟨_, _, rfl, StaleEq.refl s.coreInit⟩
  | setInput k => cases h; exact ⟨_, _, transact_setInput k t, staleEq_setKey hst _⟩
  | tickTimers =>
    obtain ⟨entries, rfl, hlive⟩ := staleEq_iff.mp hst
    cases h
    exact ⟨_, _, rfl, rfl, hlive⟩
  | displaySnapshot | soundTimerActive => cases h; exact ⟨_, _, rfl, hst⟩

/-- Settles O44, by induction over the schedule: each transaction keeps the relation. -/
theorem staleEntriesAreNeverRead : Obligations.StaleEntriesAreNeverRead := by
  intro ts
  induction ts with
  | nil =>
    intro s t s' hst h
    cases h
    exact ⟨t, rfl, hst⟩
  | cons τ ts ih =>
    intro s t s' hst h
    obtain ⟨u, r, hu⟩ := transact_next τ s
    obtain ⟨u', r', hu', hst'⟩ := transact_staleEq hst hu
    rw [runSchedule_cons hu] at h
    obtain ⟨t', ht', hst''⟩ := ih u u' s' hst' h
    exact ⟨t', (runSchedule_cons hu').trans ht', hst''⟩

end Sys2Proof.Machine
end

section
namespace Sys2Proof.Machine

/-! ### Encodings and frames of the remaining instructions -/

theorem decodeWord_of_eq_encode {w : Word} (i : Instr) (h : w = encode i) : decodeWord w = .ok i :=
  h ▸ decodeWord_encode i

/-- The frame of an instruction that writes a result and then the flag. -/
theorem sameBut_regAndFlag (s : State) (x : Reg) (v : Byte) (f : Bool) :
    SameBut s (s.setResultFlag x v f) (regAndFlag x) noBytes [] :=
  sameBut_setResultFlag s x v f (w := regAndFlag x) (.inl rfl) (.inr rfl) noBytes []

/-! ### RET and CALL (R81, R83) -/

/-- Settles O15: a RET by the depth, and on the empty stack by the policy. -/
theorem retPopsReturnAddress : Obligations.RetPopsReturnAddress := by
  refine ⟨decodeWord_encode .ret, fun s => ⟨fun hpos => ?pop, fun h0 hp => ?fatal, fun h0 hp => ?clamp⟩⟩
  case pop => exact ⟨_, exec_ret_of_pos hpos, rfl, rfl, rfl, sameBut_stack_setPc s s.stack _ _⟩
  case fatal => rw [exec_ret_of_empty h0, State.stackFailure_of_fatal _ _ hp]; rfl
  case clamp => rw [exec_ret_of_empty h0, State.stackFailure_of_clamp _ _ hp]; rfl

/-- Settles O16: a CALL by the depth, and on the full stack by the policy. -/
theorem callPushesReturnAddress : Obligations.CallPushesReturnAddress := by
  refine ⟨fun nnn => decodeWord_of_eq_encode (.call nnn) (ofNat_wordA 0x2000 0x2 nnn rfl),
    fun nnn s => ⟨fun hlt => ?push, fun hfull hp => ?fatal, fun hfull hp => ?clamp⟩⟩
  case push =>
    refine ⟨_, exec_call_of_room nnn hlt, ?_, fun k hk => ?_, rfl, zextNNN_toNat nnn, sameBut_stack_setPc s _ _ _⟩
    · exact Vector.getElem_set_self hlt
    · exact Vector.getElem_set_ne hlt k.isLt (Ne.symm hk)
  case fatal => rw [exec_call_of_full nnn hfull, State.stackFailure_of_fatal _ _ hp]; rfl
  case clamp =>
    refine ⟨_, ?_, zextNNN_toNat nnn, rfl, sameBut_setPc_report s (zextNNN nnn) (.stackOverflow s.pc0)⟩
    rw [exec_call_of_full nnn hfull, State.stackFailure_of_clamp _ _ hp]

/-- Settles O17: the RET pops the entry at the old depth, which the CALL pushed, and leaves the entries below it. -/
theorem callThenRetReturns : Obligations.CallThenRetReturns := by
  intro nnn s t u hlt h hstack hSP
  rw [exec_call_of_room nnn hlt] at h
  cases h
  have hdepth : u.SP.val = s.SP.val + 1 := congrArg Fin.val hSP
  refine ⟨_, exec_ret_of_pos (s := u) (by omega), ?pc, ?depth, fun k hk => ?below⟩
  case pc => simp [hstack, hdepth]
  case depth => exact Fin.ext (by simp [hdepth])
  case below =>
    rw [State.stack_setPc]
    simp only [hstack, State.stack_setPc]
    exact Vector.getElem_set_ne _ _ (by omega)

/-! ### The register skips (R86, R87) -/

theorem exec_seVxVy (x y : Reg) (n : Nibble) (s : State) :
    exec (.seVxVy x y n) s = .next (s.skipIf (s.reg x == s.reg y)) := rfl

theorem exec_sneVxVy (x y : Reg) (n : Nibble) (s : State) :
    exec (.sneVxVy x y n) s = .next (s.skipIf (s.reg x != s.reg y)) := rfl

/-- Settles O20: both are `skipIf`, in which the low nibble does not occur. -/
theorem registerSkips : Obligations.RegisterSkips := by
  refine ⟨fun x y n => ⟨decodeWord_of_eq_encode (.seVxVy x y n) (ofNat_wordXYN 0x5000 0x5 x y n rfl),
    decodeWord_of_eq_encode (.sneVxVy x y n) (ofNat_wordXYN 0x9000 0x9 x y n rfl)⟩, fun x y n s => ⟨?se, ?sne⟩⟩
  case se =>
    exact ⟨_, exec_seVxVy x y n s, State.pc_skipIf_beq_toNat s _ _, sameBut_skipIf s _ _ _ List.mem_cons_self⟩
  case sne =>
    exact ⟨_, exec_sneVxVy x y n s, State.pc_skipIf_bne_toNat s _ _, sameBut_skipIf s _ _ _ List.mem_cons_self⟩

/-! ### Bitwise instructions (R94 to R96) -/

theorem exec_or (x y : Reg) (s : State) : exec (.or x y) s = .next (s.setReg x (s.reg x ||| s.reg y)) := rfl
theorem exec_and (x y : Reg) (s : State) : exec (.and x y) s = .next (s.setReg x (s.reg x &&& s.reg y)) := rfl
theorem exec_xor (x y : Reg) (s : State) : exec (.xor x y) s = .next (s.setReg x (s.reg x ^^^ s.reg y)) := rfl

/-- Settles O23: each is one write of V[X], of a bitwise operation on the two old values. -/
theorem bitwiseOperations : Obligations.BitwiseOperations := by
  refine ⟨fun x y => ⟨decodeWord_of_eq_encode (.or x y) (ofNat_wordXYS 0x8001 0x8 x y 0x1 rfl),
    decodeWord_of_eq_encode (.and x y) (ofNat_wordXYS 0x8002 0x8 x y 0x2 rfl),
    decodeWord_of_eq_encode (.xor x y) (ofNat_wordXYS 0x8003 0x8 x y 0x3 rfl)⟩, fun x y s => ⟨?or, ?and, ?xor⟩⟩
  case or =>
    refine ⟨_, exec_or x y s, sameBut_setReg_onlyReg s x _, fun k => ?_⟩
    rw [State.reg_setReg_same, BitVec.getLsbD_or]
  case and =>
    refine ⟨_, exec_and x y s, sameBut_setReg_onlyReg s x _, fun k => ?_⟩
    rw [State.reg_setReg_same, BitVec.getLsbD_and]
  case xor =>
    refine ⟨_, exec_xor x y s, sameBut_setReg_onlyReg s x _, fun k => ?_⟩
    rw [State.reg_setReg_same, BitVec.getLsbD_xor]

/-! ### Arithmetic with a flag (R97 to R101) -/

theorem State.reg_setResultFlag_result (s : State) {x : Reg} (v : Byte) (f : Bool) (h : x ≠ VF) :
    (s.setResultFlag x v f).reg x = v := by
  rw [State.reg_setResultFlag, if_neg (Ne.symm h), if_pos rfl]

@[simp] theorem State.reg_setResultFlag_flag (s : State) (x : Reg) (v : Byte) (f : Bool) :
    (s.setResultFlag x v f).reg VF = flagByte f := by
  rw [State.reg_setResultFlag, if_pos rfl]

theorem flagByte_decide_toNat (p : Prop) [Decidable p] : (flagByte (decide p)).toNat = if p then 1 else 0 := by
  simp only [flagByte_toNat, decide_eq_true_eq]

theorem flagByte_shrFlag_toNat (a : Byte) : (flagByte (shrFlag a)).toNat = a.toNat % 2 := by
  rw [shrFlag_eq, flagByte_decide_toNat]
  split <;> omega

theorem flagByte_shlFlag_toNat (a : Byte) : (flagByte (shlFlag a)).toNat = a.toNat / 128 := by
  have ha : a.toNat < 256 := a.isLt
  rw [shlFlag_eq, flagByte_decide_toNat]
  split <;> omega

theorem exec_addVxVy (x y : Reg) (s : State) : exec (.addVxVy x y) s =
    .next (s.setResultFlag x (addResult (s.reg x) (s.reg y)) (carryFlag (s.reg x) (s.reg y))) := rfl

theorem exec_sub (x y : Reg) (s : State) : exec (.sub x y) s =
    .next (s.setResultFlag x (subResult (s.reg x) (s.reg y)) (noBorrowFlag (s.reg x) (s.reg y))) := rfl

theorem exec_subn (x y : Reg) (s : State) : exec (.subn x y) s =
    .next (s.setResultFlag x (subResult (s.reg y) (s.reg x)) (noBorrowFlag (s.reg y) (s.reg x))) := rfl

theorem exec_shr (x y : Reg) (s : State) : exec (.shr x y) s =
    .next (s.setResultFlag x (shrResult (s.reg x)) (shrFlag (s.reg x))) := rfl

theorem exec_shl (x y : Reg) (s : State) : exec (.shl x y) s =
    .next (s.setResultFlag x (shlResult (s.reg x)) (shlFlag (s.reg x))) := rfl

/-- Settles O24: the result and its carry, the flag last. -/
theorem addSetsCarry : Obligations.AddSetsCarry := by
  refine ⟨fun x y => decodeWord_of_eq_encode (.addVxVy x y) (ofNat_wordXYS 0x8004 0x8 x y 0x4 rfl),
    fun x y s => ⟨_, exec_addVxVy x y s, fun hx => ?sum, ?carry, sameBut_regAndFlag s x _ _⟩⟩
  case sum => rw [State.reg_setResultFlag_result s _ _ hx, addResult_toNat]
  case carry => rw [State.reg_setResultFlag_flag, carryFlag, flagByte_decide_toNat]

/-- Settles O25: both are `subResult` with `noBorrowFlag`, the operands exchanged. -/
theorem subtractionsSetNoBorrow : Obligations.SubtractionsSetNoBorrow := by
  refine ⟨fun x y => ⟨decodeWord_of_eq_encode (.sub x y) (ofNat_wordXYS 0x8005 0x8 x y 0x5 rfl),
    decodeWord_of_eq_encode (.subn x y) (ofNat_wordXYS 0x8007 0x8 x y 0x7 rfl)⟩, fun x y s => ⟨?sub, ?subn⟩⟩
  case sub =>
    refine ⟨_, exec_sub x y s, fun hx => ?_, ?_, sameBut_regAndFlag s x _ _⟩
    · rw [State.reg_setResultFlag_result s _ _ hx, subResult_toNat]
    · rw [State.reg_setResultFlag_flag, noBorrowFlag, flagByte_decide_toNat]
  case subn =>
    refine ⟨_, exec_subn x y s, fun hx => ?_, ?_, sameBut_regAndFlag s x _ _⟩
    · rw [State.reg_setResultFlag_result s _ _ hx, subResult_toNat]
    · rw [State.reg_setResultFlag_flag, noBorrowFlag, flagByte_decide_toNat]

/-- Settles O26: a logical shift of V[X], in which Y does not occur, and the bit that it drops. -/
theorem shiftsSetShiftedOutBit : Obligations.ShiftsSetShiftedOutBit := by
  refine ⟨fun x y => ⟨decodeWord_of_eq_encode (.shr x y) (ofNat_wordXYS 0x8006 0x8 x y 0x6 rfl),
    decodeWord_of_eq_encode (.shl x y) (ofNat_wordXYS 0x800E 0x8 x y 0xE rfl)⟩, fun x y s => ⟨?shr, ?shl⟩⟩
  case shr =>
    refine ⟨_, exec_shr x y s, fun hx => ?_, ?_, sameBut_regAndFlag s x _ _⟩
    · rw [State.reg_setResultFlag_result s _ _ hx, shrResult_toNat]
    · rw [State.reg_setResultFlag_flag, flagByte_shrFlag_toNat]
  case shl =>
    refine ⟨_, exec_shl x y s, fun hx => ?_, ?_, sameBut_regAndFlag s x _ _⟩
    · rw [State.reg_setResultFlag_result s _ _ hx, shlResult_toNat]
    · rw [State.reg_setResultFlag_flag, flagByte_shlFlag_toNat]

/-! ### RND (R102) -/

theorem exec_rnd (x : Reg) (nn : Byte) (s : State) :
    exec (.rnd x nn) s = .next (s.nextDraw.rndWith s.drawByte x nn) := rfl

theorem State.reg_rndWith_same (s : State) (rnd : Byte) (x : Reg) (nn : Byte) :
    (s.rndWith rnd x nn).reg x = rnd &&& nn := by
  rw [State.reg_rndWith, if_pos rfl]

/-- Settles O27: one draw, and one write of the byte drawn under the mask. -/
theorem randomByteIsMasked : Obligations.RandomByteIsMasked := by
  refine ⟨fun x nn => decodeWord_of_eq_encode (.rnd x nn) (ofNat_wordXK 0xC000 0xC x nn rfl),
    fun x nn s => ⟨_, exec_rnd x nn s, fun k => ?bits, rfl, fun hnn => ?zero, sameBut_rnd s x nn⟩⟩
  case bits => rw [State.reg_rndWith_same, BitVec.getLsbD_and, State.drawByte]
  case zero => rw [State.reg_rndWith_same, hnn]; exact BitVec.and_zero

/-! ### ADD I, Vx (R105) -/

theorem exec_addIVx (x : Reg) (s : State) : exec (.addIVx x) s = .next (s.setI (s.I + zextByte (s.reg x))) := rfl

/-- Settles O29: one write of `I`, of a 16-bit sum. -/
theorem addToIndexWraps : Obligations.AddToIndexWraps := by
  refine ⟨fun x => decodeWord_of_eq_encode (.addIVx x) (ofNat_wordXS 0xF01E 0xF x 0x1E rfl),
    fun x s => ⟨_, exec_addIVx x s, ?sum, sameBut_setI_only s _⟩⟩
  case sum => rw [State.I_setI, BitVec.toNat_add, zextByte_toNat]

/-! ### The block accesses (R103, R107 to R109) -/

theorem State.dataAddrs_of_inRange {s : State} {n : Nat} (h : DataInRange s n) :
    s.dataAddrs n = .ok (maskedRange s.I.toNat n) :=
  addrs_ok h

/-- The least address out of range is the base, or 4096 when the base is below it. -/
theorem add_leastOffset {base n k : Nat} (h : LeastOffset base n k) : base + k = max base 4096 := by
  obtain ⟨-, hout, hleast⟩ := h
  rcases Nat.eq_zero_or_pos k with hk | hk
  · omega
  · have := hleast (k - 1) (by omega)
    omega

theorem State.dataAddrs_of_leastOffset {s : State} {n k : Nat} (hp : s.params.oorPolicy = .report)
    (h : LeastOffset s.I.toNat n k) : s.dataAddrs n = .error (.outOfRangeAccess .data (s.I.toNat + k) (s.pc - 2)) := by
  rw [add_leastOffset h, State.dataAddrs, hp]
  obtain ⟨hk, hout, -⟩ := h
  exact addrs_error (by omega) (by omega)

/-- The address at offset `k` of a store reads the `k`-th byte stored: the addresses are distinct. -/
theorem State.readByte_writeBytes_maskedRange (s : State) {base n k : Nat} (bs : List Byte) (hn : n ≤ 4096)
    (hk : k < n) (hb : k < bs.length) :
    (s.writeBytes (maskedRange base n) bs).readByte ((base + k) % 4096) = bs[k] := by
  have hlen : k < (maskedRange base n).length := by rwa [length_maskedRange]
  rw [← getElem_maskedRange base n k hlen]
  exact State.readByte_writeBytes s _ bs k (nodup_maskedRange hn) hlen hb

theorem State.getElem?_readBytes_maskedRange (s : State) {base n k : Nat} (hk : k < n) :
    (s.readBytes (maskedRange base n))[k]? = some (s.readByte ((base + k) % 4096)) := by
  simp [State.readBytes, maskedRange, hk]

theorem ofNat_digit_toNat {v : Nat} (h : v < 256) : (BitVec.ofNat 8 v).toNat = v := by
  rw [BitVec.toNat_ofNat]
  exact Nat.mod_eq_of_lt h

theorem exec_ldBVx (x : Reg) (s : State) : exec (.ldBVx x) s =
    s.checked (s.dataAddrs 3) fun as => s.writeBytes as (decimalDigits (s.reg x)) := rfl

theorem exec_ldMemVx (x : Reg) (s : State) : exec (.ldMemVx x) s =
    s.checked (s.dataAddrs (x.val + 1)) fun as => s.writeBytes as (s.regsUpTo x) := rfl

theorem exec_ldVxMem (x : Reg) (s : State) : exec (.ldVxMem x) s =
    s.checked (s.dataAddrs (x.val + 1)) fun as => s.setRegs (s.readBytes as) := rfl

/-- The frame of a store to the addresses that its check gave. -/
theorem sameBut_store (s : State) {n : Nat} (bs : List Byte) (as : List Nat) (h : s.dataAddrs n = .ok as) :
    SameBut s (s.writeBytes (maskedRange s.I.toNat n) bs) noRegs (· ∈ as) [] :=
  sameBut_writeBytes s _ bs _ (fun a ha => by rwa [State.eq_maskedRange_of_dataAddrs_ok h]) []

/-- Settles O30: three digits to three distinct addresses, or the condition of the check. -/
theorem bcdStoresDigits : Obligations.BcdStoresDigits := by
  refine ⟨fun x => decodeWord_of_eq_encode (.ldBVx x) (ofNat_wordXS 0xF033 0xF x 0x33 rfl),
    fun x s => ⟨fun h => ?stores, fun hp k hk => ?raises⟩⟩
  case stores =>
    have hv : (s.reg x).toNat < 256 := (s.reg x).isLt
    have hdigit (k : Nat) (hk : k < 3) := s.readByte_writeBytes_maskedRange (base := s.I.toNat)
      (decimalDigits (s.reg x)) (by decide) hk hk
    refine ⟨_, by rw [exec_ldBVx, State.dataAddrs_of_inRange h, State.checked_ok], State.dataAddrs_of_inRange h,
      ?hundreds, ?tens, ?units, sameBut_store s _⟩
    case hundreds => exact (congrArg BitVec.toNat (hdigit 0 (by decide))).trans (ofNat_digit_toNat (by omega))
    case tens => exact (congrArg BitVec.toNat (hdigit 1 (by decide))).trans (ofNat_digit_toNat (by omega))
    case units => exact (congrArg BitVec.toNat (hdigit 2 (by decide))).trans (ofNat_digit_toNat (by omega))
  case raises => rw [exec_ldBVx, State.dataAddrs_of_leastOffset hp hk]; rfl

theorem exec_ldMemVx_of_inRange {x : Reg} {s : State} (h : DataInRange s (x.val + 1)) :
    exec (.ldMemVx x) s = .next (s.writeBytes (maskedRange s.I.toNat (x.val + 1)) (s.regsUpTo x)) := by
  rw [exec_ldMemVx, State.dataAddrs_of_inRange h, State.checked_ok]

/-- After FX55 the address at offset `r` holds V[r]. -/
theorem State.readByte_store_regsUpTo (s : State) {x r : Reg} (h : r ≤ x) :
    (s.writeBytes (maskedRange s.I.toNat (x.val + 1)) (s.regsUpTo x)).readByte ((s.I.toNat + r.val) % 4096) =
      s.reg r := by
  have hr : r.val < x.val + 1 := Nat.lt_succ_of_le h
  have hlen : r.val < (s.regsUpTo x).length := by rwa [State.length_regsUpTo]
  rw [State.readByte_writeBytes_maskedRange s _ (by omega) hr hlen, List.getElem_eq_iff]
  exact State.getElem?_regsUpTo s x r.val h

/-- Settles O31: the registers in order to distinct addresses, or the condition of the check. -/
theorem blockStoreWritesMemory : Obligations.BlockStoreWritesMemory := by
  refine ⟨fun x => decodeWord_of_eq_encode (.ldMemVx x) (ofNat_wordXS 0xF055 0xF x 0x55 rfl),
    fun x s => ⟨fun h => ?stores, fun hp k hk => ?raises⟩⟩
  case stores =>
    exact ⟨_, exec_ldMemVx_of_inRange h, fun r hr => State.readByte_store_regsUpTo s hr, sameBut_store s _⟩
  case raises => rw [exec_ldMemVx, State.dataAddrs_of_leastOffset hp hk]; rfl

/-- Settles O32: `setRegs` of the bytes read, as many as there are registers up to X, or the condition of the check. -/
theorem blockLoadReadsMemory : Obligations.BlockLoadReadsMemory := by
  refine ⟨fun x => decodeWord_of_eq_encode (.ldVxMem x) (ofNat_wordXS 0xF065 0xF x 0x65 rfl),
    fun x s => ⟨fun h => ?loads, fun hp k hk => ?raises⟩⟩
  case loads =>
    refine ⟨_, by rw [exec_ldVxMem, State.dataAddrs_of_inRange h, State.checked_ok], fun r hr => ?_,
      sameBut_blockLoad s x⟩
    rw [State.reg_setRegs, State.getElem?_readBytes_maskedRange s (Nat.lt_succ_of_le hr), Option.getD_some]
  case raises => rw [exec_ldVxMem, State.dataAddrs_of_leastOffset hp hk]; rfl

/-- Settles O51: the two fetch addresses are the first two of the store, in range or masked as they are. -/
theorem storedWordIsFetchedNext : Obligations.StoredWordIsFetchedNext := by
  intro x s hx hpc h
  refine ⟨_, exec_ldMemVx_of_inRange h, ?_⟩
  have hpc' : (s.writeBytes (maskedRange s.I.toNat (x.val + 1)) (s.regsUpTo x)).pc = s.I := by
    rw [State.writeBytes_eq, hpc]
  have hhi := s.readByte_store_regsUpTo (r := 0) (Fin.zero_le x)
  have hlo := s.readByte_store_regsUpTo (r := 1) (x := x) hx
  rcases State.fetch_cases (s.writeBytes (maskedRange s.I.toNat (x.val + 1)) (s.regsUpTo x))
    with ⟨hok, -⟩ | ⟨-, hp, hout⟩
  · rw [hok, hpc']
    exact congrArg Except.ok (congrArg₂ wordOfBytes hhi hlo)
  · rw [State.params_writeBytes] at hp
    rw [hpc'] at hout
    rcases h with h | h | h
    · rw [h] at hp; cases hp
    · omega
    · omega

/-! ### The keypad (R113 to R115) -/

theorem exec_skp (x : Reg) (s : State) :
    exec (.skp x) s = s.checked (s.keyOperand x) fun k => s.skipIf s.key[k.val] := rfl

theorem exec_sknp (x : Reg) (s : State) :
    exec (.sknp x) s = s.checked (s.keyOperand x) fun k => s.skipIf (!s.key[k.val]) := rfl

theorem keyIndex_ok {p : OorPolicy} {w : Word} {v : Byte} {k : Fin 16} (hk : k.val = v.toNat % 16)
    (h : p = .mask ∨ v.toNat < 16) : keyIndex p w v = .ok k := by
  rcases keyIndex_cases p w v with ⟨j, hj, hjv, -⟩ | ⟨-, hp, hv⟩
  · rw [hj, Fin.ext (hjv.trans hk.symm)]
  · rcases h with h | h
    · rw [h] at hp; cases hp
    · omega

theorem keyIndex_error {w : Word} {v : Byte} (h : 16 ≤ v.toNat) :
    keyIndex .report w v = .error (.outOfRangeAccess .keypad v.toNat w) := by
  rcases keyIndex_cases .report w v with ⟨-, -, -, hp | hv⟩ | ⟨herr, -⟩
  · cases hp
  · omega
  · exact herr

/-- Settles O49: `Addr` by its three lemmas, `KeyIndex` by its two. -/
theorem outOfRangePolicy : Obligations.OutOfRangePolicy :=
  ⟨fun _ _ a => ⟨fun _ => addr_ok, addr_mask a, addr_report_error⟩,
    fun _ _ _ hj => ⟨fun _ h => keyIndex_ok hj (.inr h), keyIndex_ok hj (.inl rfl), keyIndex_error⟩⟩

theorem State.pc_skipIf_not_toNat (s : State) (c : Bool) :
    (s.skipIf (!c)).pc.toNat = if c then s.pc.toNat else (s.pc.toNat + 2) % 65536 := by
  rw [State.pc_skipIf_toNat]
  cases c <;> rfl

/-- Settles O37: `skipIf` on the key that the check gives, or on its negation; or the condition of the check. -/
theorem keySkips : Obligations.KeySkips := by
  refine ⟨fun x => ⟨decodeWord_of_eq_encode (.skp x) (ofNat_wordXS 0xE09E 0xE x 0x9E rfl),
    decodeWord_of_eq_encode (.sknp x) (ofNat_wordXS 0xE0A1 0xE x 0xA1 rfl)⟩,
    fun x s => ⟨fun k hk h => ?skips, fun hp hv => ?raises⟩⟩
  case skips =>
    have hkey : s.keyOperand x = .ok k := keyIndex_ok hk h
    refine ⟨⟨_, by rw [exec_skp, hkey, State.checked_ok], State.pc_skipIf_toNat s _, ?_⟩,
      ⟨_, by rw [exec_sknp, hkey, State.checked_ok], State.pc_skipIf_not_toNat s _, ?_⟩⟩
    all_goals exact sameBut_skipIf s _ _ _ List.mem_cons_self
  case raises =>
    have hkey : s.keyOperand x = .error (.outOfRangeAccess .keypad (s.reg x).toNat (s.pc - 2)) := by
      rw [State.keyOperand, hp, keyIndex_error hv]; rfl
    rw [exec_skp, exec_sknp, hkey]
    exact ⟨rfl, rfl⟩

/-- Settles O38: the lowest pressed key is written to V[X]; with none, `pc` is set back. -/
theorem keyWaitTakesLowestKey : Obligations.KeyWaitTakesLowestKey := by
  refine ⟨fun x => decodeWord_of_eq_encode (.ldVxK x) (ofNat_wordXS 0xF00A 0xF x 0x0A rfl),
    fun x s => ⟨fun k hk hleast => ?pressed, fun hnone => ?waits⟩⟩
  case pressed =>
    refine ⟨_, exec_ldVxK_of_some x (lowestKey_some.mpr ⟨hk, hleast⟩), ?_, sameBut_setReg_onlyReg s x _⟩
    rw [State.reg_setReg_same, ofNat_digit_toNat (by omega)]
  case waits =>
    exact ⟨_, exec_ldVxK_of_none x (lowestKey_none.mpr hnone), rfl, sameBut_setPc s _ _ _ List.mem_cons_self⟩

end Sys2Proof.Machine
end

section
namespace Sys2Proof.Machine

/-! ### DRW (R111) -/

theorem State.drawX_eq (s : State) (x : Reg) : s.drawX x = (s.reg x).toNat % 64 :=
  Nat.and_two_pow_sub_one_eq_mod _ 6

theorem State.drawY_eq (s : State) (y : Reg) : s.drawY y = (s.reg y).toNat % 32 :=
  Nat.and_two_pow_sub_one_eq_mod _ 5

theorem State.readBytes_maskedRange (s : State) (rows : Nat) :
    s.readBytes (maskedRange s.I.toNat rows) = spriteBytes s rows := by
  rw [State.readBytes, maskedRange, List.map_map]
  rfl

@[simp] theorem length_spriteBytes (s : State) (rows : Nat) : (spriteBytes s rows).length = rows := by
  simp [spriteBytes]

/-- The drawn part of a sprite ends at the bottom edge. -/
theorem start_add_length_le (s : State) (v : Nat) (n : Nibble) :
    v % 32 + (spriteBytes s (drawnRows n (v % 32))).length ≤ 32 := by
  rw [length_spriteBytes, drawnRows]
  simp only [Config.displayH]
  omega

/-- The bit that DRW puts on the cell (i, j): the sprite at `I`, from the start cell on, in its drawn rows. -/
def State.spriteAt (s : State) (x y : Reg) (n : Nibble) (i j : Nat) : Bool :=
  spriteBit ((s.reg x).toNat % 64) ((s.reg y).toNat % 32)
    (spriteBytes s (drawnRows n ((s.reg y).toNat % 32))) i j

/-- The display and the flag that DRW leaves. -/
def State.drawn (s : State) (x y : Reg) (n : Nibble) : Canvas :=
  drawRows ((s.reg x).toNat % 64) ((s.reg y).toNat % 32)
    (spriteBytes s (drawnRows n ((s.reg y).toNat % 32))) (s.fb, false)

theorem exec_drw (x y : Reg) (n : Nibble) (s : State) : exec (.drw x y n) s =
    s.checked (s.dataAddrs (drawnRows n ((s.reg y).toNat % 32))) fun as => s.setCanvas
      (drawRows ((s.reg x).toNat % 64) ((s.reg y).toNat % 32) (s.readBytes as) (s.fb, false)) := by
  rw [← State.drawX_eq, ← State.drawY_eq]
  rfl

theorem exec_drw_of_inRange {x y : Reg} {n : Nibble} {s : State}
    (h : DataInRange s (drawnRows n ((s.reg y).toNat % 32))) :
    exec (.drw x y n) s = .next (s.setCanvas (s.drawn x y n)) := by
  rw [exec_drw, State.dataAddrs_of_inRange h, State.checked_ok, State.readBytes_maskedRange, State.drawn]

/-- Everything DRW can do: the draw, or a raise, which draws nothing. -/
theorem exec_drw_cases {x y : Reg} {n : Nibble} {s t : State} (h : exec (.drw x y n) s = .next t) :
    t = s.setCanvas (s.drawn x y n) ∨ t.fb = s.fb := by
  rw [exec_drw] at h
  rcases State.checked_cases h with ⟨as, has, rfl⟩ | ⟨c, -, rfl⟩
  · rw [State.eq_maskedRange_of_dataAddrs_ok has, State.readBytes_maskedRange]
    exact .inl rfl
  · exact .inr rfl

/-- The cells after a draw: the old ones XOR the sprite's bits. -/
theorem State.cell_drawn (s : State) (x y : Reg) (n : Nibble) (i j : Nat) :
    Display.cell (s.drawn x y n).1 i j = (Display.cell s.fb i j != s.spriteAt x y n i j) :=
  cell_drawRows _ _ _ (start_add_length_le s _ n) _ i j

/-- The flag of a draw is the collision on the display before it; a cell off the display is off, so it needs no
bounds. -/
theorem State.flag_drawn (s : State) (x y : Reg) (n : Nibble) : (s.drawn x y n).2 = true ↔
    ∃ i j, i < 64 ∧ j < 32 ∧ s.spriteAt x y n i j = true ∧ Display.cell s.fb i j = true := by
  rw [State.drawn, flag_drawRows _ _ _ (start_add_length_le s _ n)]
  constructor
  · rintro (hfalse | ⟨i, j, hbit, hcell⟩)
    · cases hfalse
    · by_cases hin : i < 64 ∧ j < 32
      · exact ⟨i, j, hin.1, hin.2, hbit, hcell⟩
      · rw [Display.cell_off s.fb i j (by omega)] at hcell
        cases hcell
  · rintro ⟨i, j, -, -, hbit, hcell⟩
    exact .inr ⟨i, j, hbit, hcell⟩

theorem State.VF_setCanvas_eq_one (s : State) (c : Canvas) : (s.setCanvas c).reg VF = 1 ↔ c.2 = true := by
  rw [State.reg_setCanvas, if_pos rfl]
  cases c.2 <;> simp [flagByte]

theorem State.VF_setCanvas_eq_zero (s : State) (c : Canvas) : (s.setCanvas c).reg VF = 0 ↔ ¬ c.2 = true := by
  rw [State.reg_setCanvas, if_pos rfl]
  cases c.2 <;> simp [flagByte]

/-- Settles O34: the closed form of a sprite, cell by cell and for the flag; or the condition of the check. -/
theorem drawXorsClippedSprite : Obligations.DrawXorsClippedSprite := by
  refine ⟨fun x y n => decodeWord_of_eq_encode (.drw x y n) (ofNat_wordXYN 0xD000 0xD x y n rfl), ?draw⟩
  rintro x y n s x0 y0 rows rfl rfl rfl
  refine ⟨fun h => ⟨_, exec_drw_of_inRange h, fun i j _ _ => s.cell_drawn x y n i j, fun hc => ?collides,
    fun hc => ?misses, sameBut_setCanvas s _ (w := onlyReg VF) rfl _ List.mem_cons_self⟩, fun hp k hk => ?raises⟩
  case collides => exact (s.VF_setCanvas_eq_one _).mpr ((s.flag_drawn x y n).mpr hc)
  case misses => exact (s.VF_setCanvas_eq_zero _).mpr (mt (s.flag_drawn x y n).mp hc)
  case raises =>
    rw [exec_drw, State.dataAddrs_of_leastOffset (n := drawnRows n ((s.reg y).toNat % 32)) hp hk]
    rfl

/-! ### The display properties (R112) -/

/-- A sprite has its 1 bits in its window only. -/
theorem window_of_spriteBit {x0 y0 : Nat} {bytes : List Byte} {i j : Nat} (h : spriteBit x0 y0 bytes i j = true) :
    x0 ≤ i ∧ i < min (x0 + 8) 64 ∧ y0 ≤ j ∧ j < y0 + bytes.length := by
  simp only [spriteBit, Bool.and_eq_true, decide_eq_true_eq] at h
  obtain ⟨⟨⟨⟨hx, hx8⟩, hx64⟩, hy⟩, hbit⟩ := h
  have hrow : j - y0 < bytes.length := by
    by_contra hge
    rw [List.getElem?_eq_none (Nat.not_lt.mp hge)] at hbit
    cases hbit
  exact ⟨hx, by omega, hy, by omega⟩

theorem exec_fb {i : Instr} {s t : State} (hcls : i ≠ .cls) (hdrw : ∀ x y n, i ≠ .drw x y n)
    (h : exec i s = .next t) : t.fb = s.fb :=
  (exec_sameBut h).parts .fb (by cases i <;> simp_all [writesParts])

/-- A cell that a DRW changes took a 1 bit. -/
theorem spriteAt_of_changed_cell {x y : Reg} {n : Nibble} {s t : State} {i j : Nat}
    (h : exec (.drw x y n) s = .next t) (hne : Display.cell t.fb i j ≠ Display.cell s.fb i j) :
    s.spriteAt x y n i j = true := by
  rcases exec_drw_cases h with rfl | hfb
  · rw [State.fb_setCanvas, State.cell_drawn] at hne
    cases hbit : s.spriteAt x y n i j with
    | true => rfl
    | false => exact absurd (by rw [hbit, Bool.bne_false]) hne
  · exact absurd (by rw [hfb]) hne

/-- A sprite without a 1 bit on the display draws nothing. -/
theorem exec_drw_of_no_bit {x y : Reg} {n : Nibble} {s t : State}
    (hr : DataInRange s (drawnRows n ((s.reg y).toNat % 32)))
    (hbit : ∀ i j, i < 64 → j < 32 → s.spriteAt x y n i j = false)
    (h : exec (.drw x y n) s = .next t) : t.fb = s.fb ∧ t.reg VF = 0 := by
  cases (exec_drw_of_inRange hr).symm.trans h
  refine ⟨Display.ext_cell fun i j hi hj => ?_, (s.VF_setCanvas_eq_zero _).mpr (mt (s.flag_drawn x y n).mp ?_)⟩
  · rw [State.fb_setCanvas, State.cell_drawn, hbit i j hi hj, Bool.bne_false]
  · rintro ⟨i, j, hi, hj, hone, -⟩
    rw [hbit i j hi hj] at hone; cases hone

/-- On a blank display no draw collides. -/
theorem exec_drw_of_blank {x y : Reg} {n : Nibble} {s t : State} (hblank : s.fb = Display.blank)
    (hr : DataInRange s (drawnRows n ((s.reg y).toNat % 32))) (h : exec (.drw x y n) s = .next t) :
    t.reg VF = 0 := by
  cases (exec_drw_of_inRange hr).symm.trans h
  refine (s.VF_setCanvas_eq_zero _).mpr (mt (s.flag_drawn x y n).mp ?_)
  rw [hblank]
  exact not_collides_blank _ _ _

/-- Settles O35, property by property. -/
theorem displayProperties : Obligations.DisplayProperties := by
  refine ⟨fun _ _ _ => exec_fb, fun x y n s t i j h hne => ?window, ?empty, ?blank⟩
  case window =>
    have hwin := window_of_spriteBit (spriteAt_of_changed_cell h hne)
    rwa [length_spriteBytes] at hwin
  case empty =>
    rintro x y n s t rows rfl hr hbit h
    exact exec_drw_of_no_bit hr hbit h
  case blank =>
    intro x y n s t u hr hcls h
    cases (exec_cls s).symm.trans hcls
    exact exec_drw_of_blank (s := s.setFb Display.blank) rfl hr h

/-! ### The same draw twice (L1.3) -/

/-- The state after a draw, with `pc` back at some place. -/
def State.afterDraw (s : State) (x y : Reg) (n : Nibble) (pc : Word) : State :=
  (s.setCanvas (s.drawn x y n)).setPc pc

/-- A draw writes VF only, so it keeps the operands of the next one. -/
theorem State.reg_afterDraw (s : State) (x y : Reg) (n : Nibble) (pc : Word) {r : Reg} (hr : r ≠ VF) :
    (s.afterDraw x y n pc).reg r = s.reg r := by
  rw [State.afterDraw, State.reg_setPc, State.reg_setCanvas, if_neg (Ne.symm hr)]

theorem State.spriteAt_afterDraw (s : State) {x y : Reg} (n : Nibble) (pc : Word) (i j : Nat) (hx : x ≠ VF)
    (hy : y ≠ VF) : (s.afterDraw x y n pc).spriteAt x y n i j = s.spriteAt x y n i j := by
  simp only [State.spriteAt, State.reg_afterDraw s x y n pc hx, State.reg_afterDraw s x y n pc hy]
  rfl

theorem State.cell_afterDraw (s : State) (x y : Reg) (n : Nibble) (pc : Word) (i j : Nat) :
    Display.cell (s.afterDraw x y n pc).fb i j = (Display.cell s.fb i j != s.spriteAt x y n i j) :=
  s.cell_drawn x y n i j

/-- A bit that is XORed twice is gone. -/
theorem State.fb_drawn_afterDraw (s : State) {x y : Reg} (n : Nibble) (pc : Word) (hx : x ≠ VF) (hy : y ≠ VF) :
    ((s.afterDraw x y n pc).drawn x y n).1 = s.fb := by
  refine Display.ext_cell fun i j _ _ => ?_
  rw [State.cell_drawn, State.cell_afterDraw, State.spriteAt_afterDraw s n pc i j hx hy, Bool.bne_assoc,
    bne_self_eq_false, Bool.bne_false]

/-- The second draw collides where the first has turned a cell on. -/
theorem State.flag_drawn_afterDraw (s : State) {x y : Reg} (n : Nibble) (pc : Word) (hx : x ≠ VF) (hy : y ≠ VF) :
    ((s.afterDraw x y n pc).drawn x y n).2 = true ↔
      ∃ i j, i < 64 ∧ j < 32 ∧ Display.cell s.fb i j = false ∧ s.spriteAt x y n i j = true := by
  rw [State.flag_drawn]
  refine exists₂_congr fun i j => and_congr_right fun _ => and_congr_right fun _ => ?_
  rw [State.spriteAt_afterDraw s n pc i j hx hy, State.cell_afterDraw]
  cases Display.cell s.fb i j <;> cases s.spriteAt x y n i j <;> decide

/-- Settles O36: the second draw is the first one's sprite on the first one's display. -/
theorem drawTwiceRestores : Obligations.DrawTwiceRestores := by
  rintro x y n s t u pc rows hx hy rfl hr h h'
  cases (exec_drw_of_inRange hr).symm.trans h
  have hr' : DataInRange (s.afterDraw x y n pc)
      (drawnRows n (((s.afterDraw x y n pc).reg y).toNat % 32)) := by
    rw [State.reg_afterDraw s x y n pc hy]; exact hr
  cases (exec_drw_of_inRange hr').symm.trans h'
  have hVF := ((s.afterDraw x y n pc).VF_setCanvas_eq_one _).trans (s.flag_drawn_afterDraw n pc hx hy)
  refine ⟨s.fb_drawn_afterDraw n pc hx hy, hVF, fun hoff => hVF.trans ?anyBit⟩
  case anyBit => simp only [hoff, true_and]; rfl

end Sys2Proof.Machine
end

section
namespace Sys2Proof.Machine

/-! ### Fetch and step (40_step.md) -/

theorem State.fetch_of_inRange {s : State} (h : s.params.oorPolicy = .mask ∨ s.pc.toNat < 0xFFF) :
    s.fetch = .ok (wordOfBytes (s.readByte (s.pc.toNat % 4096)) (s.readByte ((s.pc.toNat + 1) % 4096))) := by
  rcases s.fetch_cases with ⟨hok, -⟩ | ⟨-, hp, hout⟩
  · exact hok
  · rcases h with h | h
    · rw [h] at hp; cases hp
    · omega

/-- Two bytes that decode, with nothing left over, are a word that decodes. -/
theorem decodeWord_of_decodeBytes {hi lo : Byte} {i : Instr} (h : decodeBytes [hi, lo] = .ok (i, [])) :
    decodeWord (wordOfBytes hi lo) = .ok i := by
  rw [decodeBytes] at h
  cases hd : decodeWord (wordOfBytes hi lo) with
  | ok j => rw [hd] at h; cases h; rfl
  | error e => rw [hd] at h; cases h

/-- Settles O6: the fetch gives the word of the two bytes, and the state given is the pre-advanced one. -/
theorem stepRunsDecodedInstruction : Obligations.StepRunsDecodedInstruction := by
  intro s i hh hr hd
  exact step_exec hh (State.fetch_of_inRange (hr.imp_right fun h => by omega)) (decodeWord_of_decodeBytes hd)

/-- Settles O7: the case of the step for a word that does not decode. -/
theorem unmappedWordIsPassedOver : Obligations.UnmappedWordIsPassedOver := fun _ _ _ hh hf hd => step_unmapped hh hf hd

/-- Settles O10: the case of the step for a latch that is set. -/
theorem haltedStepChangesNothing : Obligations.HaltedStepChangesNothing := fun _ _ h => step_halted h

/-- Settles O9: of the two fetch addresses the second is out of range at 0xFFF, the first above it. -/
theorem fetchOutOfRangeIsLatched : Obligations.FetchOutOfRangeIsLatched := by
  refine ⟨fun s => ⟨?inRange, fun h => ⟨_, State.fetch_of_inRange h⟩⟩, fun s hh hp hout => ?latched⟩
  case inRange =>
    rintro ⟨w, hw⟩
    rcases s.fetch_cases with ⟨-, hr⟩ | ⟨herr, -, -⟩
    · exact hr
    · rw [herr] at hw; cases hw
  case latched =>
    rcases s.fetch_cases with ⟨-, hr | hr⟩ | ⟨herr, -, -⟩
    · rw [hr] at hp; cases hp
    · omega
    · have hleast : LeastOffset s.pc.toNat 2 (max s.pc.toNat 4096 - s.pc.toNat) :=
        ⟨by omega, by omega, fun j hj => by omega⟩
      refine ⟨_, hleast, ?_⟩
      rw [add_leastOffset hleast]
      exact step_fetch_error hh herr

/-- Settles O40: FX0A sets `pc` back over the pre-advance and does nothing else. -/
theorem keyWaitIsIdempotent : Obligations.KeyWaitIsIdempotent := by
  rintro s ⟨hh, x, hf, hnone⟩
  rw [step_exec hh hf (decodeWord_encode (.ldVxK x)),
    exec_ldVxK_of_none x (s := s.preAdvance) (lowestKey_none.mpr hnone), State.pc0_preAdvance]
  rfl

/-- Settles O48: the jump sets `pc` back over the pre-advance and does nothing else, so its word is fetched again. -/
theorem atRestIsStable : Obligations.AtRestIsStable := by
  rintro s ⟨hh, nnn, hf, hpc⟩
  have htarget : zextNNN nnn = s.pc := BitVec.eq_of_toNat_eq ((zextNNN_toNat nnn).trans hpc)
  refine ⟨?_, hh, nnn, hf, hpc⟩
  rw [step_exec hh hf (decodeWord_encode (.jp nnn)), exec_jp, htarget]
  rfl

/-! ### The trace record (R80) -/

theorem mem_registers_traceRecord (s t : State) (x : Reg) (a b : Nat) :
    ⟨x, a, b⟩ ∈ (traceRecord s t).registers ↔ a = (s.reg x).toNat ∧ b = (t.reg x).toNat ∧ a ≠ b := by
  rw [traceRecord, mem_deltas]
  exact and_iff_right (mem_allRegs x)

theorem mem_specials_traceRecord (s t : State) (q : SpecialReg) (a b : SpecialValue) :
    ⟨q, a, b⟩ ∈ (traceRecord s t).specials ↔ a = s.special q ∧ b = t.special q ∧ a ≠ b := by
  rw [traceRecord, mem_deltas]
  exact and_iff_right (mem_allSpecials q)

/-- Settles O59: the step does not look at the flag, and the record is computed from the states before and after. -/
theorem traceIsOnlyAnOutput : Obligations.TraceIsOnlyAnOutput := by
  intro s
  obtain ⟨t, ht⟩ := step_next s
  refine ⟨t, traceRecord s t, transact_step false ht, transact_step true ht, ht, rfl, rfl, fun w hh hf => ?word,
    mem_registers_traceRecord s t, mem_specials_traceRecord s t, fun c hh hc => ?latch⟩
  case word =>
    have hw := State.fetchedWord_of_ok hh hf
    exact ⟨hw, fun i hd => State.currentInstr_of_ok hw hd⟩
  case latch =>
    refine (mem_specials_traceRecord s t _ _ _).mpr ⟨?_, ?_, by simp⟩
    · rw [State.special, hh]
    · rw [State.special, hc]

/-! ### Memory in canonical form (R43) -/

theorem Memory.entry_eq_some_of_mem {p : Params} {m : Memory} (hw : Memory.wf p m) {a : Nat} {v : Byte}
    (h : (a, v) ∈ m) : Memory.entry m a = some v := by
  induction m with
  | nil => cases h
  | cons c m ih =>
    obtain ⟨b, u⟩ := c
    obtain ⟨hrise, hin⟩ := hw
    obtain ⟨hb, hrise⟩ := List.pairwise_cons.mp hrise
    rcases List.mem_cons.mp h with h | h
    · cases h; simp [Memory.entry]
    · have hlt : b < a := hb (a, v) h
      rw [Memory.entry, if_neg (by omega)]
      exact ih ⟨hrise, fun c hc => hin c (List.mem_cons_of_mem _ hc)⟩ h

theorem Memory.mem_of_entry_eq_some {m : Memory} {a : Nat} {v : Byte} (h : Memory.entry m a = some v) :
    (a, v) ∈ m := by
  induction m with
  | nil => cases h
  | cons c m ih =>
    obtain ⟨b, u⟩ := c
    rw [Memory.entry] at h
    split at h
    · next hb => cases h; cases hb; exact List.mem_cons_self
    · exact List.mem_cons_of_mem _ (ih h)

/-- In canonical form the cells are the addresses that read otherwise than after reset, with what they read. -/
theorem Memory.mem_iff_read {p : Params} {m : Memory} (hw : Memory.wf p m) {a : Nat} {v : Byte} :
    (a, v) ∈ m ↔ Memory.read p m a = v ∧ v ≠ resetByte p a := by
  constructor
  · intro h
    exact ⟨by rw [Memory.read, Memory.entry_eq_some_of_mem hw h, Option.getD_some], (hw.2 (a, v) h).2⟩
  · rintro ⟨rfl, hne⟩
    cases he : Memory.entry m a with
    | none => rw [Memory.read, he] at hne; exact absurd rfl hne
    | some u => rw [Memory.read, he]; exact Memory.mem_of_entry_eq_some he

/-- Settles O50: the reads fix the cells, and the addresses that rise strictly fix their order. -/
theorem canonicalMemoriesAreEqual : Obligations.CanonicalMemoriesAreEqual := by
  intro p m n hm hn hread
  have hnodup {l : Memory} (hl : Memory.wf p l) : l.Nodup :=
    hl.1.imp fun hlt heq => absurd hlt (by rw [heq]; exact lt_irrefl _)
  have hperm : m.Perm n := (List.perm_ext_iff_of_nodup (hnodup hm) (hnodup hn)).mpr fun ⟨a, v⟩ => by
    rw [Memory.mem_iff_read hm, Memory.mem_iff_read hn, hread]
  exact hperm.eq_of_pairwise (fun c d _ _ hcd hdc => absurd hcd (lt_asymm hdc)) hm.1 hn.1

/-! ### Reset and the host interface (R45, R127, R130, R137 to R139) -/

/-- The font takes the 80 bytes from its base on. -/
theorem resetByte_font (p : Params) (g : Fin 80) : resetByte p (p.fontBase.val + g.val) = p.fontData[g.val] := by
  simp [resetByte]

theorem resetByte_off_font {p : Params} {a : Nat} (h : a < p.fontBase.val ∨ p.fontBase.val + 80 ≤ a) :
    resetByte p a = 0 := by
  unfold resetByte
  split
  · rw [Vector.getElem?_eq_none (by omega), Option.getD_none]
  · rfl

/-- The font ends below 0x200, where the program starts. -/
theorem resetByte_of_ge {p : Params} {a : Nat} (h : 0x200 ≤ a) : resetByte p a = 0 :=
  resetByte_off_font (.inr (by have := p.fontBase.isLt; omega))

/-- Settles O52: each element by its constant, and memory by its reset contents. -/
theorem resetValues : Obligations.ResetValues := by
  rintro p s rfl
  exact ⟨resetByte_font p, fun a h => resetByte_off_font h, fun r => Vector.getElem_replicate .., rfl, rfl, rfl,
    fun k => Vector.getElem_replicate .., Display.cell_blank, fun k => Vector.getElem_replicate .., rfl, rfl, rfl, rfl⟩

/-- Settles O53: what `coreInit` is. -/
theorem initializeForgetsTheState : Obligations.InitializeForgetsTheState := transact_init

/-- The state with an image written from 0x200 upward. -/
def State.withImage (s : State) (image : List Byte) : State :=
  { s with mem := Memory.writeFrom s.params s.mem 0x200 image }

theorem State.readByte_withImage (s : State) (image : List Byte) (a : Nat) : (s.withImage image).readByte a =
    if 0x200 ≤ a then (image[a - 0x200]?).getD (s.readByte a) else s.readByte a :=
  Memory.read_writeFrom s.params image s.mem 0x200 a

theorem sameBut_withImage (s : State) (image : List Byte) :
    SameBut s (s.withImage image) noRegs (fun a => 0x200 ≤ a ∧ a < 0x200 + image.length) [] := by
  refine ⟨fun _ _ => rfl, fun a ha => ?_, fun q _ => by cases q <;> simp [Part.same, State.withImage]⟩
  rw [State.readByte_withImage]
  split
  · rw [List.getElem?_eq_none (by omega), Option.getD_none]
  · rfl

theorem State.load_of_fits {s : State} {image : List Byte} (h : image.length ≤ 3584) :
    s.load image = (s.withImage image, .ok) :=
  if_neg (Nat.not_lt.mpr h)

theorem State.load_of_too_long {s : State} {image : List Byte} (h : 3584 < image.length) :
    s.load image = (s, .loadError image.length) :=
  if_pos h

/-- Settles O54: a write of the image upward from 0x200, or nothing. -/
theorem loadCopiesImage : Obligations.LoadCopiesImage := by
  refine fun image s => ⟨fun h => ⟨s.withImage image, ?answer, fun k hk => ?copied, sameBut_withImage s image⟩,
    fun h => ?tooLong⟩
  case answer => rw [transact_load, State.load_of_fits h]
  case copied => simp [State.readByte_withImage, hk]
  case tooLong => rw [transact_load, State.load_of_too_long h]

theorem runSchedule_boot {image : List Byte} (s : State) (h : image.length ≤ 3584) :
    runSchedule (bootSchedule image) s = .next (s.coreInit.withImage image) := by
  rw [bootSchedule, runSchedule_cons (transact_init s), runSchedule_cons (transact_load image s.coreInit),
    State.load_of_fits h]
  rfl

theorem State.readByte_coreInit (s : State) (a : Nat) : s.coreInit.readByte a = resetByte s.params a := rfl

/-- With nothing loaded the word at 0x200 is 0x0000. -/
theorem State.fetch_coreInit (s : State) : s.coreInit.fetch = .ok 0x0000 := by
  have hpc : s.coreInit.pc.toNat = 0x200 := rfl
  rw [State.fetch_of_inRange (.inr (by omega)), hpc, State.readByte_coreInit, State.readByte_coreInit,
    resetByte_of_ge (by decide), resetByte_of_ge (by decide)]
  rfl

/-- Settles O55: the image is written over the reset contents, which are 0 from 0x200 on, and 0x0000 is unmapped. -/
theorem bootPlacesProgram : Obligations.BootPlacesProgram := by
  refine ⟨fun image s h => ⟨_, runSchedule_boot s h, rfl, rfl, fun a => ?memory⟩, fun s => ?unloaded⟩
  case memory =>
    rw [State.readByte_withImage, State.readByte_coreInit]
    split
    · next ha => rw [resetByte_of_ge ha]
    · rfl
  case unloaded =>
    exact ⟨_, step_unmapped rfl s.fetch_coreInit (decodeWord_error.mpr ⟨rfl, .inl (by decide)⟩), rfl, rfl, rfl⟩

theorem tickDown_toNat (b : Byte) : (tickDown b).toNat = b.toNat - 1 := by
  unfold tickDown
  split
  · next h => rw [h]; rfl
  · next h =>
    have hpos : b.toNat ≠ 0 := fun h0 => h (BitVec.eq_of_toNat_eq h0)
    have hlt : b.toNat < 256 := b.isLt
    rw [BitVec.toNat_sub_of_le]
    · rfl
    · exact Nat.one_le_iff_ne_zero.mpr hpos

/-- Settles O56: `tickDown` of each timer. -/
theorem tickDecrementsTimers : Obligations.TickDecrementsTimers := fun s =>
  ⟨s.tickTimers, transact_tickTimers s, tickDown_toNat s.DT, tickDown_toNat s.ST, fun _ _ => rfl, fun _ _ => rfl,
    fun q hq => by cases q <;> simp_all [Part.same]⟩

theorem sameBut_setKey (s : State) (k : Vector Bool 16) : SameBut s (s.setKey k) noRegs noBytes [.key] :=
  ⟨fun _ _ => rfl, fun _ _ => rfl, fun q hq => by cases q <;> simp_all [Part.same]⟩

/-- Settles O57: one write of the keypad, of the 16 bits. -/
theorem setInputOverwritesKeys : Obligations.SetInputOverwritesKeys := fun k s =>
  ⟨s.setInput k, transact_setInput k s, fun _ => Vector.getElem_ofFn .., sameBut_setKey s _⟩

end Sys2Proof.Machine
end
